-- ==== Sys2Proof/Word.lean ====
section
/-! DEFINITION. The words of the engine and the values its lines and its session can take (rules R6, R20, R60, R67, R79).
Every quantity of the spec is unsigned (R6). -/

namespace Sys2Proof

/-- A payload opcode, `opcode[23:0]` (R67). -/
abbrev Opcode := BitVec 24

/-- A 16-bit value: what REGOUT returns, and one transfer word of the packing (R42, R147). -/
abbrev Half := BitVec 16

/-- `SESSION` (R21): the engine's two modes (R196). -/
inductive Session where
  | closed
  | active
  deriving DecidableEq, Repr, Inhabited

/-- The three values of the reset-line latch `RST` (R22): the source's three verbs, kept distinct. -/
inductive ResetDrive where
  | low
  | high
  | released
  deriving DecidableEq, Repr, Inhabited

/-- The two directions of the data line, latch `DIR` (R23). -/
inductive DataDir where
  | drive
  | sense
  deriving DecidableEq, Repr, Inhabited

/-- How a port word is to be read.
The spec has levels of encoding that "must not be confused" (R60), and the numbers of one level recur at another, so a
word carries its format beside its bits (log entry 1): the table's formats CMD, FRAME28, FRAME5, FRAMEKEY, CELL
(outbound and inbound, R61) and the six payload formats, which are one format here because their bits tell them apart. -/
inductive Format where
  | command
  | frame28
  | frame5
  | frameKey
  | cellOut
  | cellIn
  | opcode
  deriving DecidableEq, Repr, Inhabited

/-- A word of one of the levels of encoding: a format, a number of bits, and the bits read as a number whose bit 0 is the
least significant one (R6); for a frame, bit `k` is frame bit `k`, the `k`-th cell in time (R7). -/
structure PortWord where
  format : Format
  width  : Nat
  bits   : Nat
  deriving DecidableEq, Repr, Inhabited

end Sys2Proof
end

