-- ==== Sys2Proof/Config.lean ====
section
/-! DEFINITION. What an implementation fixes (rule R5) and the values the spec leaves open (93_implementation_defined.md
U1, U2, U5, U6, U7). An `opaque` constant has no body: nothing can be proved of its value, so a theorem about it holds
whatever it is. -/

namespace Sys2Proof

/-- The parameters of the engine (R5), "fixed for the life of the engine" (R29); the step never writes one.
The defaults are the source's literals (D13): the durations unaudited and nominal, the bit counts normative for the frame
formats of 30_encoding.md (log entry 17). -/
structure Config where
  /-- `KEY`, the entry key value: any natural number; bits at and above `KEY_LEN` are ignored (R110(b)). -/
  key : Nat
  /-- `KEY_LEN`, its bit length: any natural number, 0 included (R110(a)). -/
  keyLen : Nat
  /-- `P`, the protocol period in microseconds, possibly 0. -/
  p : Nat
  /-- `T_RST_SETTLE` (R224). -/
  tRstSettle : Nat := 100
  /-- `T_KEY_HOLD` (R224). -/
  tKeyHold : Nat := 20000
  /-- `T_ENTER_HOLD` (R224). -/
  tEnterHold : Nat := 50000
  /-- `T_EXIT_LOW` (R224). -/
  tExitLow : Nat := 5000
  /-- `T_CLK_HIGH`, the clock's high time inside a pulse: open, and no event carries it (R94). -/
  tClkHigh : Nat := 0
  /-- `N_FLUSH`: zero bits at the end of OPEN (R63). -/
  nFlush : Nat := 5
  /-- `N_CTRL`: control bits at the head of a frame (R66). -/
  nCtrl : Nat := 4
  /-- `N_OPCODE`: opcode bits in a SIX frame (R64). -/
  nOpcode : Nat := 24
  /-- `N_REGOUT_DELAY`: zero bits after REGOUT's control nibble (R65). -/
  nRegoutDelay : Nat := 8
  /-- `N_REGOUT_DATA`: bits clocked in by REGOUT (R65). -/
  nRegoutData : Nat := 16
  /-- `RESET_RELEASED_LEVEL`, `true` for high: the level a two-level reading gives the reset line when released (R22). -/
  releasedHigh : Bool := true
  deriving DecidableEq, Repr, Inhabited

namespace Config

/-- `KEY` of the engine modelled: in no source (91_not_in_source.md N3), so free (log entry 6). -/
opaque engineKey : Nat
/-- `KEY_LEN` of the engine modelled: free (N3). -/
opaque engineKeyLen : Nat
/-- `P` of the engine modelled: free (N2). -/
opaque enginePeriod : Nat
/-- `T_CLK_HIGH` of the engine modelled: free (N4). -/
opaque engineClkHigh : Nat
/-- `RESET_RELEASED_LEVEL` of the engine modelled: free (N6). -/
opaque engineReleasedHigh : Bool

/-- The configuration `exec` runs with: the open parameters free, the durations and the bit counts at the
source's literals (R224, R5). -/
def engine : Config where
  key := engineKey
  keyLen := engineKeyLen
  p := enginePeriod
  tClkHigh := engineClkHigh
  releasedHigh := engineReleasedHigh

/-- The bit the target shows at the `n`-th `sample()` since power-on, where the model's input list holds none: "a free
draw per sample, under no law" (R32, U2; log entry 8). -/
opaque freeBit : Nat → Bool

/-- `DOUT` at power-on: "unspecified (0 or 1)" (R33, U1; log entry 5). -/
opaque doutAtPowerOn : Bool

/-- `RST` at power-on: "unspecified (`low`, `high` or `released`)" (R33, U1; log entry 5). -/
opaque rstAtPowerOn : ResetDrive

end Config

end Sys2Proof
end

