-- ==== Sys2Proof/Syntax.lean ====
section
/-! DEFINITION. The instructions: one constructor per row of spec/opcode_table.json, at the table's four levels. -/

namespace Sys2Proof

/-- The rows of the opcode table.
The operands of an encoder call are numbers, because the source's formulas are untyped and a call whose operand is
outside its type is refused, not impossible (R131); `Instr.wf` is the spec's typing.  The operand of SIX is 24 bits:
"an operand wider than 24 bits cannot be expressed" (R73). -/
inductive Instr where
  -- level 1, the commands of the host (R60, R79)
  | openCmd
  | six (opcode : Opcode)
  | regout
  | closeCmd
  -- level 2, the wire frames (R62 to R65)
  | sixFrame (opcode : Opcode)
  | regoutFrame
  | flushFrame
  | keyFrame
  -- the bit cells (R98, R99)
  | sendBit (b : Bool)
  | recvBit
  -- level 3, the payload opcodes: calls of the InstructionEncoder (R132 to R142), operands in the order of R76
  | nop
  | loadImmediate (data reg : Nat)
  | store (reg addr : Nat)
  | retrieve (addr reg : Nat)
  | jump (addr : Nat)
  | bitSet (addr bit : Nat)
  | tableReadLow (src srcMode dst dstMode : Nat)
  | tableReadHigh (src srcMode dst dstMode : Nat)
  | tableWriteLow (src srcMode dst dstMode : Nat)
  | tableWriteHigh (src srcMode dst dstMode : Nat)
  | tableWriteHighByte (src srcMode dst dstMode : Nat)
  deriving DecidableEq, Repr

/-- The addressing modes, "values 0–5, order fixed" (R70). -/
inductive AddrMode where
  | direct
  | indirect
  | indirectPostDecrement
  | indirectPostIncrement
  | indirectPreDecrement
  | indirectPreIncrement
  deriving DecidableEq, Repr

namespace AddrMode

/-- The 3-bit code of a mode (R70). -/
def code : AddrMode → Nat
  | .direct => 0
  | .indirect => 1
  | .indirectPostDecrement => 2
  | .indirectPostIncrement => 3
  | .indirectPreDecrement => 4
  | .indirectPreIncrement => 5

end AddrMode

end Sys2Proof
end

