-- ==== Sys2Proof/WellFormed.lean ====
section
/-! DEFINITION. Well-formed instructions: the operand types of rule R131. -/

namespace Sys2Proof

/-- `reg`, `src`, `dst`: "4 bits, 0 to 15" (R131). -/
def isReg (r : Nat) : Bool := r < 16

/-- `data`, and the `addr` of STORE, RETRIEVE, JUMP and BIT-SET: 16 bits (R131). -/
def isHalf (x : Nat) : Bool := x < 65536

/-- `bit`: "4 bits, 0 to 15" (R131). -/
def isBitNumber (b : Nat) : Bool := b < 16

/-- `srcMode`, `dstMode`: "3 bits, values 0 to 5 only" (R131, R70). -/
def isMode (m : Nat) : Bool := m < 6

/-- The four operands of a table operation (R138). -/
def isTableCall (src srcMode dst dstMode : Nat) : Bool :=
  isReg src && isMode srcMode && isReg dst && isMode dstMode

/-- Every operand is inside its type (R131). A command, a frame or a cell cannot be written with an ill-typed operand. -/
def Instr.wf : Instr → Bool
  | .openCmd => true
  | .six _ => true
  | .regout => true
  | .closeCmd => true
  | .sixFrame _ => true
  | .regoutFrame => true
  | .flushFrame => true
  | .keyFrame => true
  | .sendBit _ => true
  | .recvBit => true
  | .nop => true
  | .loadImmediate data reg => isHalf data && isReg reg
  | .store reg addr => isReg reg && isHalf addr
  | .retrieve addr reg => isHalf addr && isReg reg
  | .jump addr => isHalf addr
  | .bitSet addr bit => isHalf addr && isBitNumber bit
  | .tableReadLow src srcMode dst dstMode => isTableCall src srcMode dst dstMode
  | .tableReadHigh src srcMode dst dstMode => isTableCall src srcMode dst dstMode
  | .tableWriteLow src srcMode dst dstMode => isTableCall src srcMode dst dstMode
  | .tableWriteHigh src srcMode dst dstMode => isTableCall src srcMode dst dstMode
  | .tableWriteHighByte src srcMode dst dstMode => isTableCall src srcMode dst dstMode

end Sys2Proof
end

