-- ==== Sys2Proof/Decode.lean ====
section
/-! DEFINITION. Port words to instructions and back: the encodings of 30_encoding.md.
`decode` is total on port words and rejects by name; `encode` is written from the field tables of rules R62 to R68, not
from the InstructionEncoder's formulas (those are Machine/Encoder.lean). -/

namespace Sys2Proof

/-- Why a port word is no instruction. -/
inductive DecodeError where
  /-- The word's width is not the width its format has (R75). -/
  | wrongWidth
  /-- The word's number has a bit above its width. -/
  | bitsAboveWidth
  /-- Control codes 2 to 15 (R72). -/
  | reservedControlCode
  /-- A REGOUT frame whose frame bits 11:4 are not the eight zero bits (R65). -/
  | regoutDelayNotZero
  /-- A FLUSH frame with a one in it (R63). -/
  | flushNotZero
  /-- A KEY frame that does not carry `KEY` (R62). -/
  | notTheKey
  /-- An opcode outside every format (R71). -/
  | noOpcodeFormat
  /-- A TBL opcode with `W,H,B` = 0,0,1; 0,1,1; 1,0,1 (R68, R71). -/
  | reservedTableSelector
  /-- A TBL opcode with a mode field of 6 or 7 (R70, R71). -/
  | reservedTableMode
  deriving DecidableEq, Repr

/-! ### The fields of the formats, by position -/

/-- The slice `w[lo+len-1 : lo]` of rule R6. -/
def field (w lo len : Nat) : Nat := w / 2 ^ lo % 2 ^ len

/-- The number of the KEY frame: frame bit `k` is `KEY[KEY_LEN-1-k]` (R62), so the key bit-reversed. -/
def keyFrameNumber (key : Nat) : Nat → Nat
  | 0 => 0
  | n + 1 => (key.testBit n).toNat + 2 * keyFrameNumber key n

/-- The number of the SIX frame: control code 0 in bits 3:0, `opcode` in bits 27:4 (R64). -/
def sixFrameNumber (opcode : Opcode) : Nat := 16 * opcode.toNat

/-- Format LIT (R67). -/
def litFields (data reg : Nat) : Nat := 2 * 2 ^ 20 + data * 2 ^ 4 + reg

/-- Format FILE (R67): bits 23:19 are `1000S`, bits 18:4 are `addr[15:1]`. -/
def fileFields (s addr reg : Nat) : Nat := (16 + s) * 2 ^ 19 + addr / 2 * 2 ^ 4 + reg

/-- Format GOTO (R67). -/
def gotoFields (addr : Nat) : Nat := 4 * 2 ^ 16 + addr

/-- Format BSET (R67): `bit[3:1]` in bits 15:13, `addr[12:1]` in bits 12:1, `bit[0]` in bit 0. -/
def bsetFields (addr bit : Nat) : Nat :=
  168 * 2 ^ 16 + bit / 2 * 2 ^ 13 + field addr 1 12 * 2 + bit % 2

/-- Format TBL (R67), `w h b` the selector bits `W`, `H`, `B` of rule R68. -/
def tblFields (w h b src srcMode dst dstMode : Nat) : Nat :=
  93 * 2 ^ 17 + w * 2 ^ 16 + h * 2 ^ 15 + b * 2 ^ 14 + dstMode * 2 ^ 11 + dst * 2 ^ 7 + srcMode * 2 ^ 4 + src

/-! ### Decoding: the widths are the formats' own (R63, R64, R65, R67, R75) -/

/-- A word of `width` bits exactly, or a rejection. -/
def withWidth (width : Nat) (w : PortWord) (read : Nat → Except DecodeError Instr) : Except DecodeError Instr :=
  if w.width ≠ width then .error .wrongWidth
  else if w.bits < 2 ^ width then read w.bits
  else .error .bitsAboveWidth

/-- The command port (R79): `cmd[1:0]` in bits 1:0 and `op[23:0]` in bits 25:2, the layout of log entry 1.
`op` is ignored but for SIX. -/
def decodeCommand (w : Nat) : Except DecodeError Instr :=
  match field w 0 2 with
  | 0 => .ok .openCmd
  | 1 => .ok (.six (BitVec.ofNat 24 (field w 2 24)))
  | 2 => .ok .regout
  | _ => .ok .closeCmd

/-- The 28-cell frames, told apart by the control code (R64, R65, R66, R75). The inbound bits 27:12 of a REGOUT frame
are the target's and are no part of the instruction. -/
def decodeFrame28 (w : Nat) : Except DecodeError Instr :=
  match field w 0 4 with
  | 0 => .ok (.sixFrame (BitVec.ofNat 24 (field w 4 24)))
  | 1 => if field w 4 8 = 0 then .ok .regoutFrame else .error .regoutDelayNotZero
  | _ => .error .reservedControlCode

/-- The FLUSH frame (R63). -/
def decodeFlush (w : Nat) : Except DecodeError Instr :=
  if w = 0 then .ok .flushFrame else .error .flushNotZero

/-- The KEY frame (R62) of the configuration `c`. -/
def decodeKey (c : Config) (w : Nat) : Except DecodeError Instr :=
  if w = keyFrameNumber c.key c.keyLen then .ok .keyFrame else .error .notTheKey

/-- Format TBL: the selector bits name the operation (R68); modes 6 and 7 do not exist (R70). -/
def decodeTable (w : Nat) : Except DecodeError Instr :=
  let call (op : Nat → Nat → Nat → Nat → Instr) : Except DecodeError Instr :=
    if isMode (field w 4 3) && isMode (field w 11 3)
    then .ok (op (field w 0 4) (field w 4 3) (field w 7 4) (field w 11 3))
    else .error .reservedTableMode
  match field w 16 1, field w 15 1, field w 14 1 with
  | 0, 0, 0 => call .tableReadLow
  | 0, 1, 0 => call .tableReadHigh
  | 1, 0, 0 => call .tableWriteLow
  | 1, 1, 0 => call .tableWriteHigh
  | 1, 1, 1 => call .tableWriteHighByte
  | _, _, _ => .error .reservedTableSelector

/-- The payload opcodes (R67, R71). Nothing in the engine decodes an opcode (R74): this reads an encoder call back from
its result. -/
def decodeOpcode (w : Nat) : Except DecodeError Instr :=
  if w = 0 then .ok .nop
  else if field w 20 4 = 2 then .ok (.loadImmediate (field w 4 16) (field w 0 4))
  else if field w 19 5 = 17 then .ok (.store (field w 0 4) (2 * field w 4 15))
  else if field w 19 5 = 16 then .ok (.retrieve (2 * field w 4 15) (field w 0 4))
  else if field w 16 8 = 4 then .ok (.jump (field w 0 16))
  else if field w 16 8 = 168 then .ok (.bitSet (2 * field w 1 12) (2 * field w 13 3 + field w 0 1))
  else if field w 17 7 = 93 then decodeTable w
  else .error .noOpcodeFormat

/-- The decoder, on any port word. -/
def decode (w : PortWord) : Except DecodeError Instr :=
  match w.format with
  | .command => withWidth 26 w decodeCommand
  | .frame28 => withWidth 28 w decodeFrame28
  | .frame5 => withWidth 5 w decodeFlush
  | .frameKey => withWidth Config.engine.keyLen w (decodeKey Config.engine)
  | .cellOut => withWidth 1 w fun b => .ok (.sendBit (b.testBit 0))
  | .cellIn => withWidth 1 w fun _ => .ok .recvBit
  | .opcode => withWidth 24 w decodeOpcode

/-! ### Encoding -/

/-- A payload opcode as a port word. -/
def opcodeWord (bits : Nat) : PortWord := ⟨.opcode, 24, bits⟩

/-- The word of a well-formed instruction. Bits that no operand reaches (`op` beside a command other than SIX, the inbound
bits of REGOUT and RECVBIT) are 0. -/
def encode : Instr → PortWord
  | .openCmd => ⟨.command, 26, 0⟩
  | .six opcode => ⟨.command, 26, 1 + 4 * opcode.toNat⟩
  | .regout => ⟨.command, 26, 2⟩
  | .closeCmd => ⟨.command, 26, 3⟩
  | .sixFrame opcode => ⟨.frame28, 28, sixFrameNumber opcode⟩
  | .regoutFrame => ⟨.frame28, 28, 1⟩
  | .flushFrame => ⟨.frame5, 5, 0⟩
  | .keyFrame => ⟨.frameKey, Config.engine.keyLen, keyFrameNumber Config.engine.key Config.engine.keyLen⟩
  | .sendBit b => ⟨.cellOut, 1, b.toNat⟩
  | .recvBit => ⟨.cellIn, 1, 0⟩
  | .nop => opcodeWord 0
  | .loadImmediate data reg => opcodeWord (litFields data reg)
  | .store reg addr => opcodeWord (fileFields 1 addr reg)
  | .retrieve addr reg => opcodeWord (fileFields 0 addr reg)
  | .jump addr => opcodeWord (gotoFields addr)
  | .bitSet addr bit => opcodeWord (bsetFields addr bit)
  | .tableReadLow src srcMode dst dstMode => opcodeWord (tblFields 0 0 0 src srcMode dst dstMode)
  | .tableReadHigh src srcMode dst dstMode => opcodeWord (tblFields 0 1 0 src srcMode dst dstMode)
  | .tableWriteLow src srcMode dst dstMode => opcodeWord (tblFields 1 0 0 src srcMode dst dstMode)
  | .tableWriteHigh src srcMode dst dstMode => opcodeWord (tblFields 1 1 0 src srcMode dst dstMode)
  | .tableWriteHighByte src srcMode dst dstMode => opcodeWord (tblFields 1 1 1 src srcMode dst dstMode)

/-- The instruction with the address bits the encoding drops set to 0 (R69): `addr[0]` of STORE and RETRIEVE, `addr[0]`
and `addr[15:13]` of BIT-SET. An opcode cannot tell the two apart (R134, R135, R137). -/
def Instr.canonical : Instr → Instr
  | .store reg addr => .store reg (2 * field addr 1 15)
  | .retrieve addr reg => .retrieve (2 * field addr 1 15) reg
  | .bitSet addr bit => .bitSet (2 * field addr 1 12) bit
  | i => i

/-! ### What a host may present -/

/-- The level of an instruction is a host's: one of the four commands (R60), or a call of the encoder, which is outside
the engine's session (R130, R193). "None of these is a host command; the host reaches them only through the four commands"
is said of the cells and the primitives (40_bit_transfer.md); a frame is what a command sends (R60). -/
def Instr.isRequest (i : Instr) : Bool :=
  match (encode i).format with
  | .command => true
  | .opcode => true
  | .frame28 => false
  | .frame5 => false
  | .frameKey => false
  | .cellOut => false
  | .cellIn => false

/-! ### The opcode table's own numbering -/

/-- The row's mnemonic in spec/opcode_table.json. -/
def Instr.mnemonic : Instr → String
  | .openCmd => "OPEN"
  | .six _ => "SIX"
  | .regout => "REGOUT"
  | .closeCmd => "CLOSE"
  | .sixFrame _ => "SIX.frame"
  | .regoutFrame => "REGOUT.frame"
  | .flushFrame => "FLUSH.frame"
  | .keyFrame => "KEY.frame"
  | .sendBit _ => "SENDBIT"
  | .recvBit => "RECVBIT"
  | .nop => "NOP"
  | .loadImmediate _ _ => "LOAD-IMMEDIATE"
  | .store _ _ => "STORE"
  | .retrieve _ _ => "RETRIEVE"
  | .jump _ => "JUMP"
  | .bitSet _ _ => "BIT-SET"
  | .tableReadLow _ _ _ _ => "TABLE-READ-LOW"
  | .tableReadHigh _ _ _ _ => "TABLE-READ-HIGH"
  | .tableWriteLow _ _ _ _ => "TABLE-WRITE-LOW"
  | .tableWriteHigh _ _ _ _ => "TABLE-WRITE-HIGH"
  | .tableWriteHighByte _ _ _ _ => "TABLE-WRITE-HIGH-BYTE"

/-- A row of the payload part of spec/opcode_table.json: its `match` and `mask`. -/
structure OpcodeRow where
  mnemonic : String
  pattern  : Nat
  mask     : Nat
  deriving DecidableEq, Repr

/-- The eleven payload rows of spec/opcode_table.json (R74). -/
def opcodeRows : List OpcodeRow :=
  [⟨"NOP", 0x000000, 0xFFFFFF⟩, ⟨"LOAD-IMMEDIATE", 0x200000, 0xF00000⟩, ⟨"STORE", 0x880000, 0xF80000⟩,
   ⟨"RETRIEVE", 0x800000, 0xF80000⟩, ⟨"JUMP", 0x040000, 0xFF0000⟩, ⟨"BIT-SET", 0xA80000, 0xFF0000⟩] ++
  [⟨"TABLE-READ-LOW", 0xBA0000, 0xFFC000⟩, ⟨"TABLE-READ-HIGH", 0xBA8000, 0xFFC000⟩,
   ⟨"TABLE-WRITE-LOW", 0xBB0000, 0xFFC000⟩, ⟨"TABLE-WRITE-HIGH", 0xBB8000, 0xFFC000⟩,
   ⟨"TABLE-WRITE-HIGH-BYTE", 0xBBC000, 0xFFC000⟩]

/-- The opcode `w` matches the row. -/
def OpcodeRow.matches (r : OpcodeRow) (w : Nat) : Bool := w &&& r.mask == r.pattern

/-- The port word that a word of the opcode table stands for. The table gives a row a number of bits and no level, so the
level is read from that number (log entry 14): one byte or a select code's 2 bits, a command; 5 bits, the FLUSH frame;
24 bits, a payload opcode; 2 or 4 bytes, 28 bits or the fixed 12 bits of its row, a 28-cell frame. -/
def tableWord (nbits w : Nat) : Option PortWord :=
  match nbits with
  | 2 => some ⟨.command, 26, w⟩
  | 8 => some ⟨.command, 26, w⟩
  | 5 => some ⟨.frame5, 5, w⟩
  | 12 => some ⟨.frame28, 28, w⟩
  | 16 => some ⟨.frame28, 28, w⟩
  | 28 => some ⟨.frame28, 28, w⟩
  | 32 => some ⟨.frame28, 28, w⟩
  | 24 => some ⟨.opcode, 24, w⟩
  | _ => none

/-- The instruction the decoder reads from a word of the opcode table. -/
def decodeTableWord (nbits w : Nat) : Option Instr :=
  match tableWord nbits w with
  | none => none
  | some word => (decode word).toOption

end Sys2Proof
end

