-- ==== Sys2Proof/Machine/State.lean ====
section
/-! DEFINITION. The state of the engine (rules R20 to R27, R31 to R33), its reset values, and the reasons a step can stop.
There is no memory and no address space (R40), no register file (R26), no program counter (R27) and no flag (R28). -/

namespace Sys2Proof.Machine

/-- The event alphabet (R9): everything the engine does to the outside. -/
inductive Event where
  /-- `RST(v)`: drive the reset line low or high, or release it. -/
  | rst (v : ResetDrive)
  /-- `DIR(m)`: switch the data line. -/
  | dir (m : DataDir)
  /-- `DOUT(b)`: set the data line's output level. -/
  | dout (b : Bool)
  /-- `DIN(b)`: sense the data line; `b` is the bit read. -/
  | din (b : Bool)
  /-- `CLK(1)`, `CLK(0)`. -/
  | clk (b : Bool)
  /-- `WAIT(t)`: a delay of `t` microseconds, nominal (R223). -/
  | wait (t : Nat)
  deriving DecidableEq, Repr

/-- One action of a command's list; each emits exactly one event (R27), and `sample` is the pair
`b <- sample(); emit(DIN(b))` of rule R95, whose bit is not known before. -/
inductive Act where
  | emit (e : Event)
  | sample
  deriving DecidableEq, Repr

/-- Why the engine refuses what it is asked (R191). -/
inductive RefusalReason where
  /-- A command in the wrong session state (R114). -/
  | wrongSessionState
  /-- An encoder call with an operand outside its type (R131). -/
  | operandOutOfRange
  deriving DecidableEq, Repr

/-- What an operation returns when it completes. -/
inductive Answer where
  /-- Nothing: the command returns (R203). -/
  | nothing
  /-- The one bit of a receive cell (R99). -/
  | bit
  /-- The 16-bit value of REGOUT (R112). -/
  | value
  /-- The 24-bit result of an encoder call (R130). -/
  | opcode (o : Opcode)
  deriving DecidableEq, Repr

/-- What the engine has returned to the host (R203). -/
inductive Reply where
  | done
  | bit (b : BitVec 1)
  | value (v : Half)
  | opcode (o : Opcode)
  | refused (r : RefusalReason)
  deriving DecidableEq, Repr

/-- An operation as the engine accepts it, everything it needs read once (R50): the session state that admits it (none
where no admission test applies), whether its operands are inside their types, its list of actions (R27), the session
state it leaves as its last action, and what it returns. -/
structure Job where
  needs   : Option Session
  typed   : Bool
  script  : List Act
  becomes : Option Session
  answer  : Answer
  deriving DecidableEq, Repr

/-- What the host presents at the port. The select codes of rule R79 are bits; "a model may equally take the commands as an
inductive type", and a call of the encoder is an operation and its operands, ill-typed ones included (R131). -/
inductive Request where
  /-- A word: a command in the bits of rule R79, or the opcode that is the result of a call (log entry 1). -/
  | word (w : PortWord)
  /-- The operation itself with its operands. -/
  | op (i : Instr)
  deriving DecidableEq, Repr

/-- The state of the engine (R20) with the trace (R9), the progress inside a command (R27), and the model's own fields
for what stands outside the engine: the host's requests, what the host was returned, and the bits of the target. -/
structure State where
  /-- `SESSION` (R21). -/
  session : Session
  /-- `RST`, the reset-line latch (R22). -/
  rst : ResetDrive
  /-- `DIR`, the data-line direction (R23). -/
  dir : DataDir
  /-- `DOUT`, the data-line output latch (R24). -/
  dout : Bool
  /-- `CLK`, the clock-line latch (R25). -/
  clk : Bool
  /-- The trace: the events emitted since power-on, oldest first (R9, R12); a ghost, never read (R20). -/
  trace : List Event
  /-- `useq`: the index of the next event of the command in flight (R27); 0 between commands. -/
  useq : Nat
  /-- The operation accepted and not yet returned, with its operand as read at admission (R10, R50). -/
  inFlight : Option Job
  /-- The bits the operation in flight has sampled, in the order taken (R42, R100); transient (R26). -/
  rx : List Bool
  /-- What each completed or refused request returned to the host, oldest first (R203); a ghost, never read. -/
  replies : List Reply
  /-- The model's own: the requests the host has yet to present, next first (R10, R11; log entry 13). -/
  host : List Request
  /-- The model's own: the bits the target will show, in the order sampled (R32; log entry 8). -/
  targetBits : List Bool
  /-- The model's own: how many samples have been taken since power-on; picks the free bit (R32; log entry 8). -/
  draws : Nat
  deriving DecidableEq, Repr

/-- Faults: none. "The engine raises no synchronous exception" (R190), "no primitive fails" (R97), and nothing
interrupts a command (R116, R192, R194), so the type is empty: no step of the model answers a fault. -/
inductive Fault where
  deriving DecidableEq, Repr

/-- Reasons the model itself gives no next state. The engine's own refusals (R191) are not among them: the engine goes on
after one, so they are next states whose reply is the refusal (log entry 4). -/
inductive Refusal where
  /-- Raised by `exec`'s arm of an instruction that has no meaning yet (no arm has it now). Safe: nothing is claimed. -/
  | notModelled (mnemonic : String)
  /-- Raised by `step` where the host presents a word no instruction has: a reserved table selector, an opcode outside every
  format, a wrong width (R71, R72; U10). Safe: the spec has no such request. -/
  | undecodable (e : DecodeError)
  /-- Raised by `step` where the host presents a wire frame or a bit cell: "the host reaches them only through the four
  commands" (40_bit_transfer.md; log entry 2). Safe: the spec has no such request. -/
  | notAtThePort
  deriving DecidableEq, Repr

/-- The engine at power-on (R33, R210) with given levels of the two latches that rule R33 leaves unspecified. -/
def State.powerOn (dout : Bool) (rst : ResetDrive) : State where
  session := .closed
  rst := rst
  dir := .drive
  dout := dout
  clk := false
  trace := []
  useq := 0
  inFlight := none
  rx := []
  replies := []
  host := []
  targetBits := []
  draws := 0

/-- The engine at power-on: `DOUT` and `RST` hold values nothing is known of (U1; log entry 5). -/
def State.reset : State := State.powerOn Config.doutAtPowerOn Config.rstAtPowerOn

end Sys2Proof.Machine
end

