-- ==== Sys2Proof/Machine/Ops.lean ====
section
/-! DEFINITION. The operations every meaning is made of: emitting an event (R8, R9), sampling the data line (R95), the
primitives and bit cells as lists of actions (R91 to R100), and how an operation is admitted or refused (R114, R191),
accepted, run event by event (R27) and completed. -/

namespace Sys2Proof.Machine

/-! ### Events and samples -/

namespace State

/-- The latch an event updates (R9); `DIN` and `WAIT` update none. -/
def latch (s : State) : Event → State
  | .rst v => { s with rst := v }
  | .dir m => { s with dir := m }
  | .dout b => { s with dout := b }
  | .din _ => s
  | .clk b => { s with clk := b }
  | .wait _ => s

/-- `emit(e)`: append the event to the trace and update its latch (R8). -/
def emit (s : State) (e : Event) : State :=
  { s.latch e with trace := s.trace ++ [e] }

/-- The bit `sample()` returns: the target's next bit where the input list holds one, else a free one (R32, R95). -/
def sampled (s : State) : Bool :=
  match s.targetBits with
  | b :: _ => b
  | [] => Config.freeBit s.draws

/-- One sample is taken; nothing of the engine changes (R46). -/
def drawn (s : State) : State :=
  { s with targetBits := s.targetBits.tail, draws := s.draws + 1 }

/-- One action of the list: its event is emitted and `useq` moves on (R27). A sampled bit is kept for the result (R99). -/
def act (s : State) : Act → State
  | .emit e => { s.emit e with useq := s.useq + 1 }
  | .sample => { s.drawn.emit (.din s.sampled) with useq := s.useq + 1, rx := s.rx ++ [s.sampled] }

/-- The actions of a list, strictly in the order written (R48). -/
def acts (s : State) : List Act → State
  | [] => s
  | a :: as => (s.act a).acts as

end State

/-! ### The primitives and the bit cells, as lists of actions -/

/-- The reset-line primitive (R91). -/
def driveReset (v : ResetDrive) : List Act := [.emit (.rst v)]

/-- The data-direction primitive (R92). -/
def switchData (m : DataDir) : List Act := [.emit (.dir m)]

/-- The data-set primitive (R93). -/
def setData (b : Bool) : List Act := [.emit (.dout b)]

/-- The clock-pulse primitive (R94): high, then low, no `WAIT` between (log entry 10). -/
def pulseClock : List Act := [.emit (.clk true), .emit (.clk false)]

/-- The data-sense primitive (R95). -/
def senseData : List Act := [.sample]

/-- The delay primitive (R96). -/
def delay (t : Nat) : List Act := [.emit (.wait t)]

/-- SENDBIT(b) (R98). -/
def sendBit (c : Config) (b : Bool) : List Act :=
  setData b ++ delay c.p ++ pulseClock ++ delay c.p

/-- RECVBIT (R99): the sample stands at the head of the cell (log entry 11). -/
def recvBit (c : Config) : List Act :=
  senseData ++ delay c.p ++ pulseClock ++ delay c.p

/-- SENDBITS_LSB(v, n) (R100). -/
def sendBitsLsb (c : Config) (v : Nat) : Nat → List Act
  | 0 => []
  | n + 1 => sendBitsLsb c v n ++ sendBit c (v.testBit n)

/-- SENDBITS_MSB(v, n) (R100). -/
def sendBitsMsb (c : Config) (v : Nat) : Nat → List Act
  | 0 => []
  | n + 1 => sendBit c (v.testBit n) ++ sendBitsMsb c v n

/-- SENDZEROS(n) (R100). -/
def sendZeros (c : Config) : Nat → List Act
  | 0 => []
  | n + 1 => sendBit c false ++ sendZeros c n

/-- The cells of RECVBITS_LSB(n) (R100); `assemble` makes their value. -/
def recvBits (c : Config) : Nat → List Act
  | 0 => []
  | n + 1 => recvBit c ++ recvBits c n

/-- `b_0*2^0 + b_1*2^1 + ...`, the first bit taken least significant (R42). -/
def assemble : List Bool → Nat
  | [] => 0
  | b :: bs => b.toNat + 2 * assemble bs

/-! ### Admission, refusal, completion -/

namespace State

/-- The admission test of an operation, made before its first event (R114, R131, R193). -/
def refusal (s : State) (j : Job) : Option RefusalReason :=
  if j.typed then
    match j.needs with
    | none => none
    | some m => if s.session = m then none else some .wrongSessionState
  else some .operandOutOfRange

/-- `refuse(reason)`: "no pin event, no state change" (R8, R191); the host is returned the refusal (R203). -/
def refuse (s : State) (r : RefusalReason) : State :=
  { s with replies := s.replies ++ [.refused r] }

/-- The operation is accepted: `useq` starts at 0 (R27) and its operands are read (R50). -/
def accept (s : State) (j : Job) : State :=
  { s with inFlight := some j, useq := 0, rx := [] }

/-- What the completed operation returns (R203); a received value is assembled from the samples (R42). -/
def reply (s : State) : Answer → Reply
  | .nothing => .done
  | .bit => .bit (BitVec.ofNat 1 (assemble s.rx))
  | .value => .value (BitVec.ofNat 16 (assemble s.rx))
  | .opcode o => .opcode o

/-- The operation's last action, and its return: `SESSION` is written where it says so (R21), the reply goes to the host,
and the port is free again (R10). -/
def complete (s : State) (j : Job) : State :=
  { s with
    session := j.becomes.getD s.session
    replies := s.replies ++ [s.reply j.answer]
    inFlight := none
    useq := 0
    rx := [] }

/-- The operation in flight runs to its end (R116): the events from `useq` on, then its last action. -/
def finish (s : State) (j : Job) : State :=
  (s.acts (j.script.drop s.useq)).complete j

/-- An operation presented at the port: refused with no effect, or accepted and run to completion (R10, R114, R116). -/
def perform (s : State) (j : Job) : State :=
  match s.refusal j with
  | some r => s.refuse r
  | none => (s.accept j).finish j

end State

end Sys2Proof.Machine
end

