-- ==== Sys2Proof/Machine/Cells.lean ====
section
/-! DEFINITION. The bit cells as operations of their own, with no admission test: a cell runs inside a command that was
admitted (R98, R99; log entry 2). -/

namespace Sys2Proof.Machine

/-- SENDBIT(b): one outbound cell (R98). -/
def sendBitJob (c : Config) (b : Bool) : Job where
  needs := none
  typed := true
  script := sendBit c b
  becomes := none
  answer := .nothing

/-- RECVBIT: one inbound cell, returning its bit (R99). -/
def recvBitJob (c : Config) : Job where
  needs := none
  typed := true
  script := recvBit c
  becomes := none
  answer := .bit

/-- SENDBIT (R98). -/
def execSendBit (b : Bool) (s : State) : Host.Outcome State Fault Refusal :=
  .next (s.perform (sendBitJob Config.engine b))

/-- RECVBIT (R99). -/
def execRecvBit (s : State) : Host.Outcome State Fault Refusal :=
  .next (s.perform (recvBitJob Config.engine))

end Sys2Proof.Machine
end

