-- ==== Sys2Proof/Machine/Operands.lean ====
section
/-! DEFINITION. The operand transforms of the encoder's formulas (R69): the masks of rules R134, R135, R137, on unbounded
naturals with the operators of rule R6. -/

namespace Sys2Proof.Machine

/-- The address of STORE and RETRIEVE in place: `(addr & 0xFFFE) << 3` (R134, R135). -/
def fileAddress (addr : Nat) : Nat := (addr &&& 0xFFFE) <<< 3

/-- The address of BIT-SET in place: `addr & 0x1FFE` (R137). -/
def bitSetAddress (addr : Nat) : Nat := addr &&& 0x1FFE

/-- The bit number of BIT-SET, split: `((bit & 0xE) << 12) | (bit & 0x1)` (R137). -/
def bitSetNumber (bit : Nat) : Nat := ((bit &&& 0xE) <<< 12) ||| (bit &&& 0x1)

/-- The four operands of a table operation in place: `(dstMode<<11) | (dst<<7) | (srcMode<<4) | src` (R138). -/
def tableOperands (src srcMode dst dstMode : Nat) : Nat :=
  (dstMode <<< 11) ||| (dst <<< 7) ||| (srcMode <<< 4) ||| src

end Sys2Proof.Machine
end

