-- ==== Sys2Proof/Machine/Encoder.lean ====
section
/-! DEFINITION. The InstructionEncoder (42_instruction_encoder.md): each operation's formula, verbatim, on unbounded
naturals (R6, R131), and the operation as an instruction: it returns its opcode and touches nothing else (R130), or is
refused where an operand is outside its type (R131; log entries 3 and 20). -/

namespace Sys2Proof.Machine

/-! ### The formulas -/

/-- R132: `0x000000`. -/
def nopFormula : Nat := 0x000000

/-- R133: `0x200000 | (data << 4) | reg`. -/
def loadImmediateFormula (data reg : Nat) : Nat := 0x200000 ||| (data <<< 4) ||| reg

/-- R134: `0x880000 | ((addr & 0xFFFE) << 3) | reg`. -/
def storeFormula (reg addr : Nat) : Nat := 0x880000 ||| fileAddress addr ||| reg

/-- R135: `0x800000 | ((addr & 0xFFFE) << 3) | reg`. -/
def retrieveFormula (addr reg : Nat) : Nat := 0x800000 ||| fileAddress addr ||| reg

/-- R136: `0x040000 | addr`. -/
def jumpFormula (addr : Nat) : Nat := 0x040000 ||| addr

/-- R137: `0xA80000 | (addr & 0x1FFE) | ((bit & 0xE) << 12) | (bit & 0x1)`. -/
def bitSetFormula (addr bit : Nat) : Nat := 0xA80000 ||| bitSetAddress addr ||| bitSetNumber bit

/-- R138: base `0xBA0000`. -/
def tableReadLowFormula (src srcMode dst dstMode : Nat) : Nat := 0xBA0000 ||| tableOperands src srcMode dst dstMode

/-- R139: base `0xBA8000`. -/
def tableReadHighFormula (src srcMode dst dstMode : Nat) : Nat := 0xBA8000 ||| tableOperands src srcMode dst dstMode

/-- R140: base `0xBB0000`. -/
def tableWriteLowFormula (src srcMode dst dstMode : Nat) : Nat := 0xBB0000 ||| tableOperands src srcMode dst dstMode

/-- R141: base `0xBB8000`. -/
def tableWriteHighFormula (src srcMode dst dstMode : Nat) : Nat := 0xBB8000 ||| tableOperands src srcMode dst dstMode

/-- R142: base `0xBBC000`. -/
def tableWriteHighByteFormula (src srcMode dst dstMode : Nat) : Nat :=
  0xBBC000 ||| tableOperands src srcMode dst dstMode

/-- The opcode a formula's number is: 24 bits (R67). Well-typed operands never reach bit 24 (R130). -/
def toOpcode (n : Nat) : Opcode := BitVec.ofNat 24 n

/-! ### The operations -/

/-- A call of the encoder: no session state admits or refuses it, it emits nothing, and it returns an opcode (R130). -/
def encoderJob (typed : Bool) (formula : Nat) : Job where
  needs := none
  typed := typed
  script := []
  becomes := none
  answer := .opcode (toOpcode formula)

/-- NOP (R132). -/
def execNop (s : State) : Host.Outcome State Fault Refusal :=
  .next (s.perform (encoderJob true nopFormula))

/-- LOAD-IMMEDIATE(data, reg) (R133). -/
def execLoadImmediate (data reg : Nat) (s : State) : Host.Outcome State Fault Refusal :=
  .next (s.perform (encoderJob (isHalf data && isReg reg) (loadImmediateFormula data reg)))

/-- STORE(reg, addr) (R134). -/
def execStore (reg addr : Nat) (s : State) : Host.Outcome State Fault Refusal :=
  .next (s.perform (encoderJob (isReg reg && isHalf addr) (storeFormula reg addr)))

/-- RETRIEVE(addr, reg) (R135). -/
def execRetrieve (addr reg : Nat) (s : State) : Host.Outcome State Fault Refusal :=
  .next (s.perform (encoderJob (isHalf addr && isReg reg) (retrieveFormula addr reg)))

/-- JUMP(addr) (R136). -/
def execJump (addr : Nat) (s : State) : Host.Outcome State Fault Refusal :=
  .next (s.perform (encoderJob (isHalf addr) (jumpFormula addr)))

/-- BIT-SET(addr, bit) (R137). -/
def execBitSet (addr bit : Nat) (s : State) : Host.Outcome State Fault Refusal :=
  .next (s.perform (encoderJob (isHalf addr && isBitNumber bit) (bitSetFormula addr bit)))

/-- TABLE-READ-LOW(src, srcMode, dst, dstMode) (R138). -/
def execTableReadLow (src srcMode dst dstMode : Nat) (s : State) : Host.Outcome State Fault Refusal :=
  .next (s.perform (encoderJob (isTableCall src srcMode dst dstMode) (tableReadLowFormula src srcMode dst dstMode)))

/-- TABLE-READ-HIGH(src, srcMode, dst, dstMode) (R139). -/
def execTableReadHigh (src srcMode dst dstMode : Nat) (s : State) : Host.Outcome State Fault Refusal :=
  .next (s.perform (encoderJob (isTableCall src srcMode dst dstMode) (tableReadHighFormula src srcMode dst dstMode)))

/-- TABLE-WRITE-LOW(src, srcMode, dst, dstMode) (R140). -/
def execTableWriteLow (src srcMode dst dstMode : Nat) (s : State) : Host.Outcome State Fault Refusal :=
  .next (s.perform (encoderJob (isTableCall src srcMode dst dstMode) (tableWriteLowFormula src srcMode dst dstMode)))

/-- TABLE-WRITE-HIGH(src, srcMode, dst, dstMode) (R141). -/
def execTableWriteHigh (src srcMode dst dstMode : Nat) (s : State) : Host.Outcome State Fault Refusal :=
  .next (s.perform (encoderJob (isTableCall src srcMode dst dstMode) (tableWriteHighFormula src srcMode dst dstMode)))

/-- TABLE-WRITE-HIGH-BYTE(src, srcMode, dst, dstMode) (R142). -/
def execTableWriteHighByte (src srcMode dst dstMode : Nat) (s : State) : Host.Outcome State Fault Refusal :=
  .next (s.perform
    (encoderJob (isTableCall src srcMode dst dstMode) (tableWriteHighByteFormula src srcMode dst dstMode)))

end Sys2Proof.Machine
end

