-- ==== Sys2Proof/Machine/Frames.lean ====
section
/-! DEFINITION. The wire frames (R62 to R65): the cells a command puts on the lines, and the frames as operations of
their own, with no admission test: a frame runs inside a command that was admitted (log entry 2). -/

namespace Sys2Proof.Machine

/-- The KEY frame: `KEY_LEN` cells, `KEY[KEY_LEN-1]` first (R62, R41(a)). -/
def keyCells (c : Config) : List Act := sendBitsMsb c c.key c.keyLen

/-- The FLUSH frame: five zero cells (R63). -/
def flushCells (c : Config) : List Act := sendZeros c c.nFlush

/-- The SIX frame: control code `0000`, then the opcode least significant bit first (R64, R41(c)). -/
def sixCells (c : Config) (opcode : Opcode) : List Act :=
  sendZeros c c.nCtrl ++ sendBitsLsb c opcode.toNat c.nOpcode

/-- REGOUT's control nibble: code 1 with its least significant bit first, `1,0,0,0` in time (R65, R66, R41(d)). -/
def regoutControl (c : Config) : List Act := sendBitsLsb c 1 c.nCtrl

/-- The REGOUT frame with its two direction switches, which are no cells (R65). -/
def regoutCells (c : Config) : List Act :=
  regoutControl c ++ sendZeros c c.nRegoutDelay ++
    switchData .sense ++ recvBits c c.nRegoutData ++ switchData .drive

/-- A frame as an operation: what is in flight while a command sends it. -/
def frameJob (cells : List Act) (answer : Answer) : Job where
  needs := none
  typed := true
  script := cells
  becomes := none
  answer := answer

/-- KEY.frame (R62). -/
def execKeyFrame (s : State) : Host.Outcome State Fault Refusal :=
  .next (s.perform (frameJob (keyCells Config.engine) .nothing))

/-- FLUSH.frame (R63). -/
def execFlushFrame (s : State) : Host.Outcome State Fault Refusal :=
  .next (s.perform (frameJob (flushCells Config.engine) .nothing))

/-- SIX.frame (R64). -/
def execSixFrame (opcode : Opcode) (s : State) : Host.Outcome State Fault Refusal :=
  .next (s.perform (frameJob (sixCells Config.engine opcode) .nothing))

/-- REGOUT.frame, returning the inbound value of frame bits 27:12 (R65). -/
def execRegoutFrame (s : State) : Host.Outcome State Fault Refusal :=
  .next (s.perform (frameJob (regoutCells Config.engine) .value))

end Sys2Proof.Machine
end

