-- ==== Sys2Proof/Machine/Session.lean ====
section
/-! DEFINITION. The four commands of the host (41_session_commands.md). -/

namespace Sys2Proof.Machine

/-- OPEN's list (R110): reset low then high, each settling; the key; the hold; the release and its hold; the flush. -/
def openScript (c : Config) : List Act :=
  driveReset .low ++ delay c.tRstSettle ++
  driveReset .high ++ delay c.tRstSettle ++
  keyCells c ++
  delay c.tKeyHold ++
  driveReset .released ++
  delay c.tEnterHold ++
  flushCells c

/-- CLOSE's list (R113): reset low, 5 ms, release. -/
def closeScript (c : Config) : List Act :=
  driveReset .low ++ delay c.tExitLow ++ driveReset .released

/-- OPEN (R110): admitted while `Closed`, leaves `Active`. -/
def openJob (c : Config) : Job where
  needs := some .closed
  typed := true
  script := openScript c
  becomes := some .active
  answer := .nothing

/-- SIX (R111): admitted while `Active`; any 24-bit opcode, sent unchanged (R73). -/
def sixJob (c : Config) (opcode : Opcode) : Job where
  needs := some .active
  typed := true
  script := sixCells c opcode
  becomes := none
  answer := .nothing

/-- REGOUT (R112): admitted while `Active`; returns 16 bits. -/
def regoutJob (c : Config) : Job where
  needs := some .active
  typed := true
  script := regoutCells c
  becomes := none
  answer := .value

/-- CLOSE (R113): admitted while `Active`, leaves `Closed`. -/
def closeJob (c : Config) : Job where
  needs := some .active
  typed := true
  script := closeScript c
  becomes := some .closed
  answer := .nothing

/-- OPEN (R110). -/
def execOpen (s : State) : Host.Outcome State Fault Refusal :=
  .next (s.perform (openJob Config.engine))

/-- SIX (R111). -/
def execSix (opcode : Opcode) (s : State) : Host.Outcome State Fault Refusal :=
  .next (s.perform (sixJob Config.engine opcode))

/-- REGOUT (R112). -/
def execRegout (s : State) : Host.Outcome State Fault Refusal :=
  .next (s.perform (regoutJob Config.engine))

/-- CLOSE (R113). -/
def execClose (s : State) : Host.Outcome State Fault Refusal :=
  .next (s.perform (closeJob Config.engine))

end Sys2Proof.Machine
end

