-- ==== Sys2Proof/Machine/Dispatch.lean ====
section
/-! DEFINITION. The meaning of every instruction: one arm per row of the opcode table, each a call of a meaning of its own. -/

namespace Sys2Proof.Machine

/-- What one instruction does. -/
def exec (i : Instr) (s : State) : Host.Outcome State Fault Refusal :=
  match i with
  -- commands (R110 to R113)
  | .openCmd => Sys2Proof.Machine.execOpen s
  | .six opcode => Sys2Proof.Machine.execSix opcode s
  | .regout => Sys2Proof.Machine.execRegout s
  | .closeCmd => Sys2Proof.Machine.execClose s
  -- wire frames (R62 to R65)
  | .sixFrame opcode => Sys2Proof.Machine.execSixFrame opcode s
  | .regoutFrame => Sys2Proof.Machine.execRegoutFrame s
  | .flushFrame => Sys2Proof.Machine.execFlushFrame s
  | .keyFrame => Sys2Proof.Machine.execKeyFrame s
  -- bit cells (R98, R99)
  | .sendBit b => Sys2Proof.Machine.execSendBit b s
  | .recvBit => Sys2Proof.Machine.execRecvBit s
  -- payload opcodes (R132 to R142)
  | .nop => Sys2Proof.Machine.execNop s
  | .loadImmediate data reg => Sys2Proof.Machine.execLoadImmediate data reg s
  | .store reg addr => Sys2Proof.Machine.execStore reg addr s
  | .retrieve addr reg => Sys2Proof.Machine.execRetrieve addr reg s
  | .jump addr => Sys2Proof.Machine.execJump addr s
  | .bitSet addr bit => Sys2Proof.Machine.execBitSet addr bit s
  | .tableReadLow src srcMode dst dstMode => Sys2Proof.Machine.execTableReadLow src srcMode dst dstMode s
  | .tableReadHigh src srcMode dst dstMode => Sys2Proof.Machine.execTableReadHigh src srcMode dst dstMode s
  | .tableWriteLow src srcMode dst dstMode => Sys2Proof.Machine.execTableWriteLow src srcMode dst dstMode s
  | .tableWriteHigh src srcMode dst dstMode => Sys2Proof.Machine.execTableWriteHigh src srcMode dst dstMode s
  | .tableWriteHighByte src srcMode dst dstMode => Sys2Proof.Machine.execTableWriteHighByte src srcMode dst dstMode s

end Sys2Proof.Machine
end

