-- ==== Sys2Proof/Machine/Jobs.lean ====
section
/-! DEFINITION. Every instruction's operation, by name: what is in flight while the instruction runs. -/

namespace Sys2Proof.Machine

/-- The operation an instruction is, as an engine configured by `c` accepts it (R29); an instruction's
meaning is to perform the operation of `Config.engine`. -/
def jobOf (c : Config) : Instr → Job
  | .openCmd => openJob c
  | .six opcode => sixJob c opcode
  | .regout => regoutJob c
  | .closeCmd => closeJob c
  | .sixFrame opcode => frameJob (sixCells c opcode) .nothing
  | .regoutFrame => frameJob (regoutCells c) .value
  | .flushFrame => frameJob (flushCells c) .nothing
  | .keyFrame => frameJob (keyCells c) .nothing
  | .sendBit b => sendBitJob c b
  | .recvBit => recvBitJob c
  | .nop => encoderJob true nopFormula
  | .loadImmediate data reg => encoderJob (isHalf data && isReg reg) (loadImmediateFormula data reg)
  | .store reg addr => encoderJob (isReg reg && isHalf addr) (storeFormula reg addr)
  | .retrieve addr reg => encoderJob (isHalf addr && isReg reg) (retrieveFormula addr reg)
  | .jump addr => encoderJob (isHalf addr) (jumpFormula addr)
  | .bitSet addr bit => encoderJob (isHalf addr && isBitNumber bit) (bitSetFormula addr bit)
  | .tableReadLow src srcMode dst dstMode =>
    encoderJob (isTableCall src srcMode dst dstMode) (tableReadLowFormula src srcMode dst dstMode)
  | .tableReadHigh src srcMode dst dstMode =>
    encoderJob (isTableCall src srcMode dst dstMode) (tableReadHighFormula src srcMode dst dstMode)
  | .tableWriteLow src srcMode dst dstMode =>
    encoderJob (isTableCall src srcMode dst dstMode) (tableWriteLowFormula src srcMode dst dstMode)
  | .tableWriteHigh src srcMode dst dstMode =>
    encoderJob (isTableCall src srcMode dst dstMode) (tableWriteHighFormula src srcMode dst dstMode)
  | .tableWriteHighByte src srcMode dst dstMode =>
    encoderJob (isTableCall src srcMode dst dstMode) (tableWriteHighByteFormula src srcMode dst dstMode)

end Sys2Proof.Machine
end

