-- ==== Sys2Proof/Machine/Fetch.lean ====
section
/-! DEFINITION. Where requests come from: the command port (R10, R51; log entry 13). The engine fetches no instructions
from a memory (R27, R50); the host presents one request at a time. -/

namespace Sys2Proof.Machine

/-- What the port makes of a request. -/
inductive Reading where
  /-- It is this instruction. -/
  | run (i : Instr)
  /-- The engine refuses it and goes on (R191). -/
  | refuse (r : RefusalReason)
  /-- It is no request at all. -/
  | stop (r : Refusal)
  deriving DecidableEq, Repr

/-- The port takes the commands and the encoder's calls; a frame or a cell is no request (R60, 40_bit_transfer.md). -/
def atThePort (i : Instr) : Reading := if i.isRequest then .run i else .stop .notAtThePort

/-- A request read. The opcode of a table operation with a mode of 6 or 7 asks for a call with an operand outside its type:
"Encoder call with an operand outside its width or a mode of 6 or 7" is refused as `OperandOutOfRange` (R131, U4). -/
def Request.read : Request → Reading
  | .op i => atThePort i
  | .word w =>
    match decode w with
    | .ok i => atThePort i
    | .error e => if e = .reservedTableMode then .refuse .operandOutOfRange else .stop (.undecodable e)

/-- The host's next request, read, with the state in which it is no longer waiting; none where the host has no
further request. -/
def fetch (s : State) : Option (Reading × State) :=
  match s.host with
  | [] => none
  | r :: rest => some (r.read, { s with host := rest })

/-- A free port at which the host presents the request, ahead of its other requests. -/
def State.present (s : State) (r : Option Request) : State :=
  { s with host := r.toList ++ s.host, inFlight := none, useq := 0, rx := [] }

/-- The table's word stored for the next step: a command or a call is the host's next request; a frame or a cell, which no
host can request, is the operation in flight, as it is while a command sends it (log entries 2 and 14). -/
def State.presentWord (s : State) (word : PortWord) : State :=
  match decode word with
  | .ok i => if i.isRequest then s.present (some (.word word)) else s.accept (jobOf Config.engine i)
  | .error _ => s.present (some (.word word))

end Sys2Proof.Machine
end

