-- ==== Sys2Proof/Machine/Step.lean ====
section
/-! DEFINITION. One step of the machine: one request of the host, run to completion (R10, R116; log entry 18). -/

namespace Sys2Proof.Machine

/-- One step. A command in flight, left there by the event-by-event machine of Machine/Micro.lean, runs to its end, since
"the next command starts only after the previous one returned" (R10); else the host's next request runs; and where the
host has none the engine does nothing (R210). -/
def step (s : State) : Host.Outcome State Fault Refusal :=
  match s.inFlight with
  | some j => .next (s.finish j)
  | none =>
    match fetch s with
    | none => .next s
    | some (.run i, t) => exec i t
    | some (.refuse r, t) => .next (t.refuse r)
    | some (.stop r, _) => .refused r

/-- `s` with the word of the opcode table as what the next step runs (log entry 14). -/
def State.withFetchWord (s : State) (nbits w : Nat) : State :=
  match tableWord nbits w with
  | some word => s.presentWord word
  | none => s.present none

end Sys2Proof.Machine
end

