-- ==== Sys2Proof/Machine/Flags.lean ====
section
/-! DEFINITION. The engine has no status flag and no command sets or tests one (R28).
The one status bit of the spec is the target's: the host reads it through REGOUT and tests it itself (R28, R164). -/

namespace Sys2Proof.Machine

/-- The host's test of a REGOUT result against the `"writing in progress" status mask` (R164): still writing. -/
def stillWriting (wrMask status : Half) : Bool := status &&& wrMask != 0

end Sys2Proof.Machine
end

