-- ==== Sys2Proof/Machine/Packing.lean ====
section
/-! DEFINITION. The helper transforms and the packing functions (R143 to R148), stateless combinational units (R3(d), R3(e)). -/

namespace Sys2Proof.Machine

/-- `upper8(x) = (x >> 16) & 0xFF` (R143). -/
def upper8 (x : Nat) : BitVec 8 := BitVec.ofNat 8 ((x >>> 16) &&& 0xFF)

/-- `lower16(x) = x & 0xFFFF` (R144). -/
def lower16 (x : Nat) : Half := BitVec.ofNat 16 (x &&& 0xFFFF)

/-- `(high & 0xFF) << 16 | (low & 0xFFFF)`, of two REGOUT results (R145). -/
def combine24 (low high : Half) : Opcode :=
  BitVec.ofNat 24 (((high.toNat &&& 0xFF) <<< 16) ||| (low.toNat &&& 0xFFFF))

/-- `fetch_next`: the entry at the cursor, or 0 (NOP) past the end; the cursor advances by 1 in both cases (R146). -/
def fetchNext {w : Nat} (image : List (BitVec w)) (cursor : Nat) : BitVec w × Nat :=
  (image.getD cursor 0, cursor + 1)

/-- The six transmission words (R147). -/
structure TransferWords where
  w1 : Half
  w2 : Half
  w3 : Half
  w4 : Half
  w5 : Half
  w6 : Half
  deriving DecidableEq, Repr

/-- The words in transfer order. -/
def TransferWords.toList (t : TransferWords) : List Half := [t.w1, t.w2, t.w3, t.w4, t.w5, t.w6]

/-- Two low bytes in one word: `((hi & 0xFF) << 8) | (lo & 0xFF)` (R147). -/
def packBytes (hi lo : Half) : Half := ((hi &&& 0xFF#16) <<< 8) ||| (lo &&& 0xFF#16)

/-- `PACK6` (R147), its operands 16 bits (log entry 22). -/
def pack6 (d1 d2 d3 d4 d5 d6 d7 d8 : Half) : TransferWords where
  w1 := d1
  w2 := packBytes d4 d2
  w3 := d3
  w4 := d5
  w5 := packBytes d8 d6
  w6 := d7

/-- One iteration of the row writer's packing: eight fetches, one `PACK6` (R148). -/
def packStep (image : List Half) (cursor : Nat) : TransferWords × Nat :=
  let (d1, c) := fetchNext image cursor
  let (d2, c) := fetchNext image c
  let (d3, c) := fetchNext image c
  let (d4, c) := fetchNext image c
  let (d5, c) := fetchNext image c
  let (d6, c) := fetchNext image c
  let (d7, c) := fetchNext image c
  let (d8, c) := fetchNext image c
  (pack6 d1 d2 d3 d4 d5 d6 d7 d8, c)

/-- `n` iterations from a cursor: their transmission words and the cursor after them. -/
def packSteps (image : List Half) : Nat → Nat → List Half × Nat
  | 0, cursor => ([], cursor)
  | n + 1, cursor =>
    let (t, c) := packStep image cursor
    let (ws, c) := packSteps image n c
    (t.toList ++ ws, c)

/-- One row: 16 applications of `PACK6` (R148). -/
def packRow (image : List Half) (cursor : Nat) : List Half × Nat := packSteps image 16 cursor

end Sys2Proof.Machine
end

