-- ==== Sys2Proof/Machine/Observe.lean ====
section
/-! DEFINITION. What can be read off the latches and the trace: the level of the lines, and the counts and times of rules
R117 and R225. The engine reads none of it. -/

namespace Sys2Proof.Machine

/-- The level the engine puts on the data line: `DOUT` while `DIR = drive`; while `DIR = sense` the engine puts none, the
line is the target's (R24, R90; log entry 12). -/
def State.dataLine (s : State) : Option Bool :=
  match s.dir with
  | .drive => some s.dout
  | .sense => none

/-- The reset line in a two-level reading, `true` for high: `released` is the level `RESET_RELEASED_LEVEL` (R22). -/
def State.resetHigh (c : Config) (s : State) : Bool :=
  match s.rst with
  | .low => false
  | .high => true
  | .released => c.releasedHigh

namespace Event

/-- The bit of a `DOUT` event: an outbound cell's bit. -/
def doutBit : Event → Option Bool
  | .dout b => some b
  | _ => none

/-- The bit of a `DIN` event: an inbound cell's bit. -/
def dinBit : Event → Option Bool
  | .din b => some b
  | _ => none

/-- The verb of an `RST` event. -/
def resetVerb : Event → Option ResetDrive
  | .rst v => some v
  | _ => none

/-- The clock level of a `CLK` event. -/
def clkLevel : Event → Option Bool
  | .clk b => some b
  | _ => none

/-- The mode of a `DIR` event. -/
def dirMode : Event → Option DataDir
  | .dir m => some m
  | _ => none

/-- The nominal duration of an event (R96). -/
def duration : Event → Nat
  | .wait t => t
  | _ => 0

end Event

/-- The outbound bits of a trace, in time order. -/
def outBits (tr : List Event) : List Bool := tr.filterMap Event.doutBit

/-- The inbound bits of a trace, in time order. -/
def inBits (tr : List Event) : List Bool := tr.filterMap Event.dinBit

/-- The reset-line verbs of a trace, in time order. -/
def resetVerbs (tr : List Event) : List ResetDrive := tr.filterMap Event.resetVerb

/-- The clock pulses of a trace: one rising edge each (R94). -/
def pulses (tr : List Event) : Nat := tr.count (.clk true)

/-- The total of the `WAIT` events, in microseconds (R117). -/
def waitTotal (tr : List Event) : Nat := (tr.map Event.duration).sum

/-- The nominal duration of a trace, each pulse lasting `T_CLK_HIGH` (R225). -/
def nominalTime (c : Config) (tr : List Event) : Nat := waitTotal tr + c.tClkHigh * pulses tr

/-- The events of a list of actions, its samples returning the bits given, in order. -/
def events : List Act → List Bool → List Event
  | [], _ => []
  | .emit e :: as, bs => e :: events as bs
  | .sample :: as, b :: bs => .din b :: events as bs
  | .sample :: as, [] => .din false :: events as []

/-- The five events of an outbound cell (R98). -/
def outCell (c : Config) (b : Bool) : List Event := [.dout b, .wait c.p, .clk true, .clk false, .wait c.p]

/-- The five events of an inbound cell whose sample is `b` (R99). -/
def inCell (c : Config) (b : Bool) : List Event := [.din b, .wait c.p, .clk true, .clk false, .wait c.p]

/-- The bits `v[0]` to `v[n-1]`, least significant first (R41). -/
def lsbBits (v n : Nat) : List Bool := (List.range n).map fun i => v.testBit i

/-- The bits `v[n-1]` to `v[0]`, most significant first: the `k`-th is `v[n-1-k]` (R41, R62). -/
def msbBits (v n : Nat) : List Bool := (List.range n).map fun k => v.testBit (n - 1 - k)

/-- How many samples a list of actions takes. -/
def sampleCount (as : List Act) : Nat := as.count .sample

/-- The next `n` bits `sample()` returns in `s` (R32). -/
def State.samples (s : State) : Nat → List Bool
  | 0 => []
  | n + 1 => s.sampled :: s.drawn.samples n

/-- `s` after `n` samples. -/
def State.afterSamples (s : State) : Nat → State
  | 0 => s
  | n + 1 => s.drawn.afterSamples n

end Sys2Proof.Machine
end

