-- ==== Sys2Proof/Machine/World.lean ====
section
/-! DEFINITION. Host, engine and target together (R11): a host program, finite or infinite (R119), that decides its next
request from what it has been told (R203), and a target that answers every sample (R32). Neither is state of the engine:
both stand beside `State`, as arguments of a run (log entry 27). -/

namespace Sys2Proof.Machine

/-- A host program: its next request, from every reply it has had since power-on; none where it has no further command. -/
abbrev HostProgram := List Reply → Option Request

/-- What stands around the engine: the host program, and the bit the target shows at each sample since power-on. -/
structure World where
  host   : HostProgram
  target : Nat → Bool

namespace World

/-- The engine's surroundings made visible to its next step: the bits the target will show (R32). -/
def shown (w : World) (s : State) : State :=
  { s with targetBits := (List.range Config.engine.nRegoutData).map fun i => w.target (s.draws + i) }

/-- One step of the engine in its surroundings. At a free port the host presents its next command, since "the next command
starts only after the previous one returned" (R10); a host with no further command presents none. -/
def step (w : World) (s : State) : Host.Outcome State Fault Refusal :=
  if s.inFlight = none ∧ s.host = [] then
    match w.host s.replies with
    | none => .next s
    | some r => Machine.step { w.shown s with host := [r] }
  else Machine.step (w.shown s)

/-- `n` steps. -/
def run (w : World) : Nat → State → Host.Outcome State Fault Refusal
  | 0, s => .next s
  | n + 1, s =>
    match w.step s with
    | .next t => w.run n t
    | .fault f => .fault f
    | .refused r => .refused r

/-- The value of the `k`-th REGOUT, where every REGOUT so far ran: its sixteen bits, the first one its bit 0 (R42). -/
def value (w : World) (k : Nat) : Half :=
  BitVec.ofNat 16 (assemble ((List.range 16).map fun i => w.target (16 * k + i)))

end World

/-! ### Host programs -/

namespace HostProgram

/-- The program with no command. -/
def stop : HostProgram := fun _ => none

/-- The infinite program that presents request number `n` after `n` replies (R119). -/
def forever (f : Nat → Request) : HostProgram := fun replies => some (f replies.length)

/-- The commands of a sequence in order (R173), then `next`, which is told only the replies after them. A refusal among the
replies does not stop the host (DESIGN CHOICE, log entry 23). -/
def ask (is : List Instr) (next : HostProgram) : HostProgram := fun replies =>
  match is[replies.length]? with
  | some i => some (.op i)
  | none => next (replies.drop is.length)

/-- The loop of a poll over the replies so far: the round again and again until the value its REGOUT returned ends it; a
round whose REGOUT was refused ends the program (log entry 27). `fuel` bounds the rounds already answered. -/
def pollFrom (round : List Instr) (ends : Half → Bool) (next : HostProgram) : Nat → HostProgram
  | 0, replies => (round[replies.length]?).map .op
  | fuel + 1, replies =>
    match round[replies.length]? with
    | some i => some (.op i)
    | none =>
      match (replies.take round.length).getLast? with
      | some (.value v) =>
        if ends v then next (replies.drop round.length)
        else pollFrom round ends next fuel (replies.drop round.length)
      | _ => none

/-- "loops with no upper bound until the mask clears" (R164, R202): each round answered is one of the replies, so their
number bounds the rounds. -/
def poll (round : List Instr) (ends : Half → Bool) (next : HostProgram) : HostProgram := fun replies =>
  pollFrom round ends next replies.length replies

end HostProgram

end Sys2Proof.Machine
end

