-- ==== Sys2Proof/Machine/HostSeq.lean ====
section
/-! DEFINITION. The host's command sequences (43_host_sequences.md), as lists of commands, and the operations with their
polls as host programs. They are host software, outside the engine (R4(a)), and nothing of the engine depends on them.
Where the spec leaves a register number or a mode open it is a parameter, and no NOP stands where the spec states none
(N11; log entry 23). An operand of the profile or of an operation that is outside the type of the call it goes into is
refused as `OperandOutOfRange` (R131; `sixOf`). -/

namespace Sys2Proof.Machine

/-- A working register, "one of `W0` to `W15`" (R160), open in 0 to 15 (D25). -/
abbrev WorkingReg := Fin 16

/-- The host's parameters: the DeviceProfile fields of rule R5, the register roles of rule R160, and the modes the spec
does not state. -/
structure HostProfile where
  tblpagAddr : Nat
  nvmconAddr : Nat
  visiAddr : Nat
  startAddr : Nat
  devidAddr : Nat
  patEraseAll : Nat
  patWriteRow : Nat
  patWriteWord : Nat
  wrMask : Half
  configStart : Nat
  configCount : Nat
  /-- The number of the write-initiate bit: in no source (N10). -/
  writeInitiateBit : Nat
  wPtr : WorkingReg
  wVisi : WorkingReg
  wData : WorkingReg
  wSrc : WorkingReg
  w1 : WorkingReg
  w2 : WorkingReg
  w3 : WorkingReg
  w4 : WorkingReg
  w5 : WorkingReg
  w6 : WorkingReg
  /-- Modes of read_word's two table reads: not stated (R163, N11). -/
  readSrcMode : AddrMode
  readDstMode : AddrMode
  /-- Operands of the TABLE-WRITE-LOW of erase: registers and modes are not stated (R165). -/
  eraseSrc : WorkingReg
  eraseSrcMode : AddrMode
  eraseDst : WorkingReg
  eraseDstMode : AddrMode
  /-- The register the data of a configuration word is loaded into: "a register" (R168). -/
  wConfig : WorkingReg
  /-- Operands of the TABLE-WRITE-LOW of a configuration word: not stated (R168). -/
  configSrc : WorkingReg
  configSrcMode : AddrMode
  configDst : WorkingReg
  configDstMode : AddrMode
  /-- Modes of the row writer's steps 1 and 8: not determined (N12, conflict C6). -/
  step1SrcMode : AddrMode
  step1DstMode : AddrMode
  step8SrcMode : AddrMode
  step8DstMode : AddrMode
  /-- `ROW_WORDS` (R5): words per flash row. -/
  rowWords : Nat := 128
  deriving DecidableEq, Repr

/-- What the host presents for "SIX with an encoder call" (R77, R160): the host evaluates the call first (R193), and presents a
SIX of the opcode it returns. An ill-typed call has no value and is refused (R131), so there is no SIX to present: the
request is the call itself, which is refused as `OperandOutOfRange` with no event (DESIGN CHOICE, log entry 23). -/
def sixOf (call : Instr) : Instr :=
  match (jobOf Config.engine call).typed, (jobOf Config.engine call).answer with
  | true, .opcode o => .six o
  | _, _ => call

/-- PREAMBLE (R78, R161). `START_ADDR` has no width in the spec: the jump is the call `JUMP(START_ADDR)` of rule R78, so a
`START_ADDR` of 2^16 or more is refused (R131; DESIGN CHOICE, log entry 23). -/
def preamble (h : HostProfile) : List Instr :=
  [sixOf .nop, sixOf (.jump h.startAddr), sixOf .nop]

/-- A word into a target register address, through `W_DATA` (R162, R165). -/
def storeWord (h : HostProfile) (data addr : Nat) : List Instr :=
  [sixOf (.loadImmediate data h.wData), sixOf (.store h.wData addr)]

/-- The table page register and the pointer register for a program-space address (R162). -/
def pointAt (h : HostProfile) (addr : Nat) : List Instr :=
  storeWord h (upper8 addr).toNat h.tblpagAddr ++ [sixOf (.loadImmediate (lower16 addr).toNat h.wPtr)]

/-- A table read from the pointer, with the given modes, aimed at VISI through `W_VISI` (R162, R163). -/
def tableRead (h : HostProfile) (op : Nat → Nat → Nat → Nat → Instr) (srcMode dstMode : AddrMode) : Instr :=
  sixOf (op h.wPtr srcMode.code h.wVisi dstMode.code)

/-- `read_device_id()` (R162): two post-increment table reads, each followed by a REGOUT. The modes are those of the
sequence the rule writes, which says that the source does not state them whole. -/
def readDeviceId (h : HostProfile) : List Instr :=
  preamble h ++ pointAt h h.devidAddr ++ [sixOf (.loadImmediate h.visiAddr h.wVisi)] ++
    [tableRead h .tableReadLow .indirectPostIncrement .indirect, .regout,
     tableRead h .tableReadLow .indirectPostIncrement .indirect, .regout] ++ preamble h

/-- `read_word(addr)` (R163): low then high "at the same address"; the result is `combine24` of the two REGOUTs. -/
def readWord (h : HostProfile) (addr : Nat) : List Instr :=
  preamble h ++ pointAt h addr ++ [sixOf (.loadImmediate h.visiAddr h.wVisi)] ++
    [tableRead h .tableReadLow h.readSrcMode h.readDstMode, .regout,
     tableRead h .tableReadHigh h.readSrcMode h.readDstMode, .regout] ++ preamble h

/-- The values REGOUT returned, in order. -/
def returnedValues (replies : List Reply) : List Half :=
  replies.filterMap fun
    | .value v => some v
    | _ => none

/-- What `read_device_id()` returns from its replies: two 16-bit halves (R162). -/
def deviceId (replies : List Reply) : Option (Half × Half) :=
  match returnedValues replies with
  | [first, second] => some (first, second)
  | _ => none

/-- What `read_word` returns from its replies (R163). -/
def wordRead (replies : List Reply) : Option Opcode :=
  match returnedValues replies with
  | [low, high] => some (combine24 low high)
  | _ => none

/-- The write-initiate bit is set (R164). -/
def startWrite (h : HostProfile) : List Instr := [sixOf (.bitSet h.nvmconAddr h.writeInitiateBit)]

/-- One round of the completion poll (R164). -/
def pollRound (h : HostProfile) : List Instr :=
  [sixOf (.retrieve h.nvmconAddr h.wData), sixOf (.store h.wData h.visiAddr), .regout]

/-- The poll ends where the mask is clear (R164); it has no bound (R202). -/
def pollEnds (h : HostProfile) (status : Half) : Bool := !stillWriting h.wrMask status

/-- `erase_chip()` up to its poll (R165). -/
def eraseChip (h : HostProfile) : List Instr :=
  preamble h ++ storeWord h h.patEraseAll h.nvmconAddr ++ pointAt h 0 ++
    [sixOf (.tableWriteLow h.eraseSrc h.eraseSrcMode.code h.eraseDst h.eraseDstMode.code)] ++ startWrite h

/-- A table write of the row writer from `W_SRC` to `W_PTR`, followed by the two settling NOPs (R166, R216). -/
def rowWrite (h : HostProfile) (op : Nat → Nat → Nat → Nat → Instr) (srcMode dstMode : AddrMode) : List Instr :=
  [sixOf (op h.wSrc srcMode.code h.wPtr dstMode.code), sixOf .nop, sixOf .nop]

/-- One iteration of the row writer: the six words loaded, the write pointer at 0, the eight table writes (R166). -/
def rowIteration (h : HostProfile) (t : TransferWords) : List Instr :=
  [sixOf (.loadImmediate t.w1.toNat h.w1), sixOf (.loadImmediate t.w2.toNat h.w2),
   sixOf (.loadImmediate t.w3.toNat h.w3), sixOf (.loadImmediate t.w4.toNat h.w4),
   sixOf (.loadImmediate t.w5.toNat h.w5), sixOf (.loadImmediate t.w6.toNat h.w6),
   sixOf (.loadImmediate 0 h.wSrc)] ++
  rowWrite h .tableWriteLow h.step1SrcMode h.step1DstMode ++
  rowWrite h .tableWriteHighByte .indirectPostIncrement .indirectPostIncrement ++
  rowWrite h .tableWriteHighByte .indirectPostIncrement .indirectPreIncrement ++
  rowWrite h .tableWriteLow .indirectPostIncrement .indirectPostIncrement ++
  rowWrite h .tableWriteLow .indirectPostIncrement .indirect ++
  rowWrite h .tableWriteHighByte .indirectPostIncrement .indirectPostIncrement ++
  rowWrite h .tableWriteHighByte .indirectPostIncrement .indirectPreIncrement ++
  rowWrite h .tableWriteLow h.step8SrcMode h.step8DstMode

/-- `n` iterations of the row writer from a cursor into the code image (R166). -/
def rowIterations (h : HostProfile) (image : List Half) : Nat → Nat → List Instr
  | 0, _ => []
  | n + 1, cursor =>
    rowIteration h (packStep image cursor).1 ++ rowIterations h image n (packStep image cursor).2

/-- The iterations of the row writer, eight words each: 16 for the 128 words of the spec (R148, R166). For another `ROW_WORDS` the
spec says nothing; the model takes as many as hold the row, so that no entry is skipped, and where the row is no multiple of
eight the last iteration packs entries of the next row too (DESIGN CHOICE, log entry 23). -/
def rowPackings (h : HostProfile) : Nat := (h.rowWords + 7) / 8

/-- `write_128words(addr, codeImage, cursor)` up to its poll (R166): eight words of the row an iteration. -/
def writeRow (h : HostProfile) (addr : Nat) (image : List Half) (cursor : Nat) : List Instr :=
  preamble h ++ storeWord h h.patWriteRow h.nvmconAddr ++ pointAt h addr ++
    rowIterations h image (rowPackings h) cursor ++ startWrite h

/-- The address `write_128words` returns: "by exactly 128 each call" (R166). -/
def nextRow (h : HostProfile) (addr : Nat) : Nat := addr + h.rowWords

/-- How many calls of the row writer an image takes: `ceil(length / 128)` (R167). -/
def rowCalls (h : HostProfile) (length : Nat) : Nat := (length + h.rowWords - 1) / h.rowWords

/-- `write_config_word(addr, data)` up to its poll (R168). -/
def writeConfigWord (h : HostProfile) (addr data : Nat) : List Instr :=
  preamble h ++ storeWord h h.patWriteWord h.nvmconAddr ++ pointAt h addr ++
    [sixOf (.loadImmediate data h.wConfig),
     sixOf (.tableWriteLow h.configSrc h.configSrcMode.code h.configDst h.configDstMode.code)] ++ startWrite h

/-- `rowLimit = CONFIG_START - (CONFIG_START mod 128)` (R171). -/
def rowLimit (h : HostProfile) : Nat := h.configStart - h.configStart % h.rowWords

/-! ### The operations with their polls, as host programs -/

/-- The completion poll: rounds until the mask clears, with no bound (R164, R202), then `next`. -/
def pollProgram (h : HostProfile) (next : HostProgram) : HostProgram := .poll (pollRound h) (pollEnds h) next

/-- What erase, row write and configuration write share: the sequence up to the poll, the poll, the preamble (R161, R164). -/
def untilDone (h : HostProfile) (start : List Instr) (next : HostProgram) : HostProgram :=
  .ask start (pollProgram h (.ask (preamble h) next))

/-- `erase_chip()` (R165). -/
def eraseChipProgram (h : HostProfile) (next : HostProgram) : HostProgram := untilDone h (eraseChip h) next

/-- `write_config_word(addr, data)` (R168). -/
def writeConfigWordProgram (h : HostProfile) (addr data : Nat) (next : HostProgram) : HostProgram :=
  untilDone h (writeConfigWord h addr data) next

/-- `n` calls of the row writer, from an address and a cursor (R166, R167). -/
def writeRowsProgram (h : HostProfile) (image : List Half) (next : HostProgram) : Nat → Nat → Nat → HostProgram
  | 0, _, _ => next
  | n + 1, addr, cursor =>
    untilDone h (writeRow h addr image cursor) (writeRowsProgram h image next n (nextRow h addr) (cursor + h.rowWords))

/-- `write_code_words(codeImage)` (R167): row after row from address 0 until the image is exhausted. Each row call sends its
preambles; that `write_code_words` adds none around them, and none for an empty image, is the model's choice, since rule R161
says "All operations" and the source does not say whether this is one (DESIGN CHOICE, log entry 23). -/
def writeCodeWordsProgram (h : HostProfile) (image : List Half) (next : HostProgram) : HostProgram :=
  writeRowsProgram h image next (rowCalls h image.length) 0 0

/-- A session around a program: OPEN first, and CLOSE when it is done (R119). Whether an operation has a session of its own
is in no source (N14); this is the case that it has. -/
def inSession (program : HostProgram → HostProgram) : HostProgram :=
  .ask [.openCmd] (program (.ask [.closeCmd] .stop))

end Sys2Proof.Machine
end

