-- ==== Sys2Proof/Machine/Micro.lean ====
section
/-! DEFINITION. The engine event by event (R10, R27): "each step emits event number `useq` and adds 1, and the command
returns when `useq` equals the list's length". The same state, the same lists; `step` takes a command at once. -/

namespace Sys2Proof.Machine

/-- A request at the free port: the admission test, made before the first event (R193), then acceptance. -/
def State.takeUp (s : State) (j : Job) : State :=
  match s.refusal j with
  | some r => s.refuse r
  | none => s.accept j

/-- One event of the command in flight, or its return, or the admission of the next request. -/
def microStep (s : State) : Host.Outcome State Fault Refusal :=
  match s.inFlight with
  | some j =>
    match j.script[s.useq]? with
    | some a => .next (s.act a)
    | none => .next (s.complete j)
  | none =>
    match fetch s with
    | none => .next s
    | some (.run i, t) => .next (t.takeUp (jobOf Config.engine i))
    | some (.refuse r, t) => .next (t.refuse r)
    | some (.stop r, _) => .refused r

/-- `n` small steps. -/
def microRun : Nat → State → Host.Outcome State Fault Refusal
  | 0, s => .next s
  | n + 1, s =>
    match microStep s with
    | .next t => microRun n t
    | .fault f => .fault f
    | .refused r => .refused r

end Sys2Proof.Machine
end

