-- ==== Sys2Proof/Safety.lean ====
section
/-! DEFINITION. The rules a run is held to, as properties of a state: the resting state between commands and the
invariants of rule R34, the discipline of the lines (R25, R93 to R95, R214), and how a run ends (R119). -/

namespace Sys2Proof.Machine

/-! ### Between commands -/

/-- No command is in flight, and its transients are at rest (R26, R27). -/
abbrev State.idle (s : State) : Prop := s.inFlight = none ∧ s.useq = 0 ∧ s.rx = []

/-- The resting lines: `CLK = 0` and `DIR = drive` (R34). -/
abbrev State.linesRest (s : State) : Prop := s.clk = false ∧ s.dir = .drive

/-- The reset-line verbs of one whole session: those of OPEN (R110), then those of CLOSE (R113). -/
def sessionVerbs : List ResetDrive := [.low, .high, .released, .low, .released]

/-- The reset-line verbs since power-on are those of `n` whole sessions and, while `Active`, of one OPEN more (R34): one
OPEN more than CLOSEs completed while `Active`, as many while `Closed`. -/
abbrev State.sessionHistory (n : Nat) (s : State) : Prop :=
  resetVerbs s.trace = (List.replicate n sessionVerbs).flatten ++
    (match s.session with
     | .active => [.low, .high, .released]
     | .closed => [])

/-! ### The latches and the trace -/

/-- Each latch holds what its last event in the trace wrote (R9), or its power-on value `p`'s. -/
abbrev State.latchesFollow (s p : State) : Prop :=
  s.rst = ((resetVerbs s.trace).getLast?).getD p.rst ∧
  s.dir = ((s.trace.filterMap Event.dirMode).getLast?).getD p.dir ∧
  s.dout = ((outBits s.trace).getLast?).getD p.dout ∧
  s.clk = ((s.trace.filterMap Event.clkLevel).getLast?).getD p.clk

/-! ### The discipline of the lines -/

/-- What an event may find on the lines and what it leaves: the direction and the clock level. While the clock is high
only its fall may follow (R25, R94); `DOUT` is set only in drive mode (R93), the line sensed only in sense mode (R95). -/
def lineStep : DataDir × Bool → Event → Option (DataDir × Bool)
  | (m, true), .clk false => some (m, false)
  | (_, true), _ => none
  | (m, false), .clk true => some (m, true)
  | (_, false), .clk false => none
  | (.drive, false), .dout _ => some (.drive, false)
  | (.sense, false), .dout _ => none
  | (.sense, false), .din _ => some (.sense, false)
  | (.drive, false), .din _ => none
  | (_, false), .dir m => some (m, false)
  | (m, false), .rst _ => some (m, false)
  | (m, false), .wait _ => some (m, false)

/-- A sequence of events keeps the discipline from the given lines; the lines it leaves. -/
def lineRun : DataDir × Bool → List Event → Option (DataDir × Bool)
  | l, [] => some l
  | l, e :: es => (lineStep l e).bind fun l' => lineRun l' es

/-- The whole trace keeps the discipline and leaves the lines at rest. -/
abbrev State.disciplined (s : State) : Prop := lineRun (.drive, false) s.trace = some (.drive, false)

/-! ### The end of a run -/

/-- "a run is over when the host has no further command and the last one has returned" (R119): nothing is in flight, nothing
is waiting, and the host program, told every reply, has no further request. -/
abbrev State.over (h : HostProgram) (s : State) : Prop := s.idle ∧ s.host = [] ∧ h s.replies = none

/-- "A finished run is well-formed only if `SESSION = Closed`", and "a run that contains a refusal" is not a good end
(R119). -/
def State.goodEnd (h : HostProgram) (s : State) : Prop :=
  s.over h ∧ s.session = .closed ∧ ∀ r, .refused r ∉ s.replies

/-- A run that never ends (R119, R202): after any number of steps the engine has gone on and the run is not over. -/
def World.endless (w : World) (s : State) : Prop := ∀ n, ∃ t, w.run n s = .next t ∧ ¬ t.over w.host

end Sys2Proof.Machine
end

