-- ==== Sys2Proof/Certificates/Slice0/Obligations.lean ====
section
/-! DEFINITION. The statements for the provers: what the rules of spec/ say the engine does.
A docstring names the rule; where a clause is a decision of the spec (92_eei_decisions.md) or the model's own choice, it
names the decision or the log entry. -/

namespace Sys2Proof.Claims

open Sys2Proof.Machine

/-! ### Words the statements share -/

/-- The `i`-th bit `sample()` returns from `s` on: the target's, or a free one (R32; log entry 8). -/
def sampleAt (s : State) (i : Nat) : Bool := (s.targetBits[i]?).getD (Config.freeBit (s.draws + i))

/-- The first `n` bits `sample()` returns from `s` on. -/
def samplesOf (s : State) (n : Nat) : List Bool := (List.range n).map (sampleAt s)

/-- `s` after a request that only returned `r`: the reply is recorded and the port is at rest; everything else is `s`'s. -/
def returned (s : State) (r : Reply) : State :=
  { s with replies := s.replies ++ [r], inFlight := none, useq := 0, rx := [] }

/-- `s` after a request that was refused: the reply is recorded; everything else is `s`'s. -/
def turnedAway (s : State) (r : RefusalReason) : State := { s with replies := s.replies ++ [.refused r] }

/-- The events of outbound cells carrying the bits, in order. The order inside a cell is decision D5 of the spec, so every
statement that names a command's or a frame's whole trace rests on it. -/
def outCells (c : Config) (bits : List Bool) : List Event := bits.flatMap (outCell c)

/-- The events of inbound cells whose samples are the bits, in order. The sample's place in the cell is decision D6. -/
def inCells (c : Config) (bits : List Bool) : List Event := bits.flatMap (inCell c)

/-- OPEN's events (R110). -/
def openTrace (c : Config) : List Event :=
  [.rst .low, .wait c.tRstSettle, .rst .high, .wait c.tRstSettle] ++ outCells c (msbBits c.key c.keyLen) ++
    [.wait c.tKeyHold, .rst .released, .wait c.tEnterHold] ++ outCells c [false, false, false, false, false]

/-- The bits of a SIX frame in time order: four zeros, then `opcode[0]` to `opcode[23]` (R64). -/
def sixBits (opcode : Opcode) : List Bool :=
  [false, false, false, false] ++ (List.range 24).map fun i => opcode.getLsbD i

/-- The outbound bits of a REGOUT frame in time order: 1, 0, 0, 0, then eight zeros (R65). -/
def regoutBits : List Bool := [true, false, false, false] ++ List.replicate 8 false

/-- REGOUT's events when its samples are `bs` (R112). -/
def regoutTrace (c : Config) (bs : List Bool) : List Event :=
  outCells c regoutBits ++ [.dir .sense] ++ inCells c bs ++ [.dir .drive]

/-- CLOSE's events (R113). -/
def closeTrace (c : Config) : List Event := [.rst .low, .wait c.tExitLow, .rst .released]

/-- The value of sixteen samples: bit `i` is the `i`-th sample (R41(e), R42). -/
def valueOf (bs : List Bool) : Half := BitVec.ofNat 16 (∑ i ∈ Finset.range 16, (bs.getD i false).toNat * 2 ^ i)

/-- The call `i` of the encoder returns `o`, in every state, with no other effect (R130), and `o` is the formula's number. That
the result is kept as a reply is the model's way to show a returned value (log entries 3, 15). -/
def Encodes (i : Instr) (formula : Nat) (o : Opcode) : Prop :=
  (∀ s, exec i s = .next (returned s (.opcode o))) ∧ o.toNat = formula

/-- Format TBL (R67) with the selector bits `W,H,B` (R68). -/
def tblOpcode (whb : BitVec 3) (src srcMode dst dstMode : Nat) : Opcode :=
  0b1011101#7 ++ whb ++ BitVec.ofNat 3 dstMode ++ BitVec.ofNat 4 dst ++ BitVec.ofNat 3 srcMode ++ BitVec.ofNat 4 src

/-- An event with its duration forgotten. -/
def blankWait : Event → Event
  | .wait _ => .wait 0
  | e => e

/-- An event with the bit it sensed forgotten. -/
def blankBit : Event → Event
  | .din _ => .din false
  | e => e

/-- A reply with the bits it received forgotten. -/
def blankReply : Reply → Reply
  | .bit _ => .bit 0
  | .value _ => .value 0
  | r => r

/-- The state with the durations of its recorded waits forgotten. -/
def forgetWaits (s : State) : State := { s with trace := s.trace.map blankWait }

/-- The state with everything the target supplied forgotten: the bits sensed, the values returned, the bits to come. -/
def forgetTarget (s : State) : State :=
  { s with trace := s.trace.map blankBit, replies := s.replies.map blankReply, targetBits := [], draws := 0 }

/-- The encoder's calls (42_instruction_encoder.md): the rows of the opcode table's level "opcode". -/
def isEncoderCall (i : Instr) : Prop := (encode i).format = .opcode

/-- The bit counts that the spec makes normative for the frame formats (R5, D13). -/
def SpecCounts (c : Config) : Prop :=
  c.nFlush = 5 ∧ c.nCtrl = 4 ∧ c.nOpcode = 24 ∧ c.nRegoutDelay = 8 ∧ c.nRegoutData = 16

/-- The engine between the events of a command: the clock is high only where the next event is its fall (R25). -/
def ClockInPulse (s : State) : Prop :=
  (s.inFlight = none → s.clk = false) ∧
  ∀ j, s.inFlight = some j →
    (∃ i, j = jobOf Config.engine i) ∧ (s.clk = true → j.script[s.useq]? = some (.emit (.clk false)))

end Sys2Proof.Claims

open Sys2Proof Sys2Proof.Machine Sys2Proof.Claims

/-! ### Reset and the step -/

/-- Power-on (R33, R210): `Closed`, `CLK = 0`, `DIR = drive`, trace empty, nothing in flight, whatever the levels of the
two unspecified latches, which `State.reset` takes from constants nothing is known of. `CLK = 0` and `DIR = drive` are
the spec's decision D7 (log entry 7); the rest of the fields are the model's (log entries 15, 18). -/
def Obligations.PowerOnIsClosedAtRestForEveryLatchLevel : Prop :=
  State.reset = State.powerOn Config.doutAtPowerOn Config.rstAtPowerOn ∧
  ∀ d r, (State.powerOn d r).session = .closed ∧ (State.powerOn d r).clk = false ∧
    (State.powerOn d r).dir = .drive ∧ (State.powerOn d r).dout = d ∧ (State.powerOn d r).rst = r ∧
    (State.powerOn d r).trace = [] ∧ (State.powerOn d r).idle ∧ (State.powerOn d r).replies = []

/-- "the engine does nothing until the host presents a command" (R210). That the host's requests are a list is log entry 13. -/
def Obligations.NothingHappensUntilTheHostPresents : Prop :=
  ∀ s : State, s.inFlight = none → s.host = [] → step s = .next s

/-- At a free port the next request of the host runs as the instruction its word decodes to, or that it names, and is no
longer waiting (R10; log entry 13). A frame or a cell is no request: "the host reaches them only through the four commands"
(40_bit_transfer.md; that the model stops there is log entry 2). -/
def Obligations.StepRunsTheDecodedRequest : Prop :=
  ∀ (s : State) (r : Request) (rest : List Request) (i : Instr), s.inFlight = none → s.host = r :: rest →
    (r = .op i ∨ ∃ w, r = .word w ∧ decode w = .ok i) →
    (i.isRequest = true → step s = exec i { s with host := rest }) ∧
    (i.isRequest = false → step s = .refused .notAtThePort)

/-- A word of the opcode table stored for the next step runs as the instruction the decoder reads from it: as the host's next
request, or, for a frame, as the operation in flight (log entries 2, 14). -/
def Obligations.StoredTableWordIsTheNextInstruction : Prop :=
  ∀ (s : State) (nbits w : Nat) (i : Instr), decodeTableWord nbits w = some i →
    step (s.withFetchWord nbits w) = exec i { s with inFlight := none, useq := 0, rx := [] }

/-- A command in flight runs to its end before anything else is taken (R10, R116): its remaining events, in order, and
then its return. -/
def Obligations.StepCompletesTheCommandInFlight : Prop :=
  ∀ (s : State) (j : Job), s.inFlight = some j →
    ∃ t, step s = .next t ∧ t.host = s.host ∧ t.inFlight = none ∧ t.useq = 0 ∧ t.rx = [] ∧
      t.session = j.becomes.getD s.session ∧
      t.trace = s.trace ++
        events (j.script.drop s.useq) (samplesOf s (sampleCount (j.script.drop s.useq))) ∧
      ∃ r, t.replies = s.replies ++ [r]

/-! ### Primitives and cells -/

/-- "append event `e` to the trace and update the pin latch the event names" (R8, R9): each event writes the one latch the
table of rule R9 gives it, `DIN` and `WAIT` none. -/
def Obligations.EachEventIsTracedAndWritesItsOwnLatch : Prop :=
  ∀ s : State,
    (∀ v, s.emit (.rst v) = { s with rst := v, trace := s.trace ++ [.rst v] }) ∧
    (∀ m, s.emit (.dir m) = { s with dir := m, trace := s.trace ++ [.dir m] }) ∧
    (∀ b, s.emit (.dout b) = { s with dout := b, trace := s.trace ++ [.dout b] }) ∧
    (∀ b, s.emit (.din b) = { s with trace := s.trace ++ [.din b] }) ∧
    (∀ b, s.emit (.clk b) = { s with clk := b, trace := s.trace ++ [.clk b] }) ∧
    (∀ t, s.emit (.wait t) = { s with trace := s.trace ++ [.wait t] })

/-- SENDBIT(b) (R98): `DOUT(b), WAIT(P), CLK(1), CLK(0), WAIT(P)`, in this order (decision D5); `DOUT` holds `b`, `CLK` is
0, nothing else changes. -/
def Obligations.SendBitEmitsItsFiveEvents : Prop :=
  ∀ (b : Bool) (s : State), exec (.sendBit b) s =
    .next { returned s .done with
      dout := b, clk := false
      trace := s.trace ++
        [.dout b, .wait Config.engine.p, .clk true, .clk false, .wait Config.engine.p] }

/-- RECVBIT (R99): `DIN(b), WAIT(P), CLK(1), CLK(0), WAIT(P)` with `b` the sampled bit, taken at the head of the cell
(decisions D5, D6), and `b` is returned; of the latches only `CLK` moves. -/
def Obligations.RecvBitSamplesThenPulsesAndReturnsTheBit : Prop :=
  ∀ s : State, exec .recvBit s =
    .next { returned s (.bit (BitVec.ofBool (sampleAt s 0))) with
      clk := false
      trace := s.trace ++
        [.din (sampleAt s 0), .wait Config.engine.p, .clk true, .clk false, .wait Config.engine.p]
      targetBits := s.targetBits.drop 1
      draws := s.draws + 1 }

/-- The multi-bit helpers (R100): the bits in the order said, five events a bit, and only `v[n-1:0]` read. -/
def Obligations.MultiBitHelpersSendBitsInTheirOrder : Prop :=
  ∀ (c : Config) (v n : Nat),
    sendBitsLsb c v n = ((List.range n).map fun i => v.testBit i).flatMap (sendBit c) ∧
    sendBitsMsb c v n = ((List.range n).map fun i => v.testBit (n - 1 - i)).flatMap (sendBit c) ∧
    sendZeros c n = (List.replicate n false).flatMap (sendBit c) ∧
    recvBits c n = (List.replicate n ()).flatMap (fun _ => recvBit c) ∧
    (sendBitsLsb c v n).length = 5 * n ∧ (sendBitsMsb c v n).length = 5 * n ∧
    (sendZeros c n).length = 5 * n ∧ (recvBits c n).length = 5 * n ∧
    sendBitsLsb c v n = sendBitsLsb c (v % 2 ^ n) n ∧ sendBitsMsb c v n = sendBitsMsb c (v % 2 ^ n) n

/-- "the same parameter `P` is used before and after the pulse" (R101, R212): in the list of every command every rise of
the clock stands between two waits of `P`, its fall following it at once. -/
def Obligations.EveryPulseStandsBetweenEqualDelays : Prop :=
  ∀ (c : Config) (i : Instr) (n : Nat), (jobOf c i).script[n]? = some (.emit (.clk true)) →
    1 ≤ n ∧ (jobOf c i).script[n - 1]? = some (.emit (.wait c.p)) ∧
    (jobOf c i).script[n + 1]? = some (.emit (.clk false)) ∧
    (jobOf c i).script[n + 2]? = some (.emit (.wait c.p))

/-! ### The wire frames -/

/-- KEY.frame (R62): `KEY_LEN` outbound cells, frame bit `k` carrying `KEY[KEY_LEN-1-k]`, and nothing else on the lines.
That a frame can be presented by itself is log entry 2. -/
def Obligations.KeyFrameSendsTheKeyMostSignificantBitFirst : Prop :=
  ∀ s : State, exec .keyFrame s =
    .next { returned s .done with
      dout := if Config.engine.keyLen = 0 then s.dout else Config.engine.key.testBit 0
      clk := if Config.engine.keyLen = 0 then s.clk else false
      trace := s.trace ++ outCells Config.engine
        ((List.range Config.engine.keyLen).map fun k => Config.engine.key.testBit (Config.engine.keyLen - 1 - k)) }

/-- FLUSH.frame (R63): five outbound cells, all zero (by itself: log entry 2). -/
def Obligations.FlushFrameSendsFiveZeros : Prop :=
  ∀ s : State, exec .flushFrame s =
    .next { returned s .done with
      dout := false, clk := false
      trace := s.trace ++ outCells Config.engine [false, false, false, false, false] }

/-- SIX.frame (R64): 28 outbound cells, control code `0000`, then frame bit `4+i` = `opcode[i]`; as a number the frame is
`opcode << 4` (R7, decision D21). By itself, in either session state, it is log entry 2. -/
def Obligations.SixFrameSendsControlCodeThenOpcodeBits : Prop :=
  ∀ (opcode : Opcode) (s : State),
    exec (.sixFrame opcode) s =
      .next { returned s .done with
        dout := opcode.getLsbD 23, clk := false
        trace := s.trace ++ outCells Config.engine (sixBits opcode) } ∧
    (sixBits opcode).length = 28 ∧
    (∀ k < 4, (sixBits opcode)[k]? = some false) ∧
    (∀ i < 24, (sixBits opcode)[4 + i]? = some (opcode.getLsbD i)) ∧
    (encode (.sixFrame opcode)).bits = opcode.toNat <<< 4 ∧
    (∀ k < 28, (sixBits opcode)[k]? = some ((encode (.sixFrame opcode)).bits.testBit k))

/-- REGOUT.frame (R65): twelve outbound cells `1,0,0,0` and eight zeros, the switch to sense mode, sixteen inbound cells
least significant bit first, the switch back to drive mode; the inbound bits are returned. By itself: log entry 2. -/
def Obligations.RegoutFrameSendsTwelveCellsAndReceivesSixteen : Prop :=
  ∀ s : State, exec .regoutFrame s =
    .next { returned s (.value (valueOf (samplesOf s 16))) with
      dir := .drive, dout := false, clk := false
      trace := s.trace ++ regoutTrace Config.engine (samplesOf s 16)
      targetBits := s.targetBits.drop 16
      draws := s.draws + 16 }

/-- Frame bit `k` is the `k`-th cell clocked (R7): the cells a frame sends are the bits of its number, bit 0 first. The
inbound cells of REGOUT.frame are no part of its number in the model (log entry 21). -/
def Obligations.FrameNumbersReadTheirCellsInTimeOrder : Prop :=
  ∀ (s : State) (i : Instr) (n : Nat),
    i = .keyFrame ∧ n = Config.engine.keyLen ∨ i = .flushFrame ∧ n = 5 ∨ i = .regoutFrame ∧ n = 12 ∨
      (∃ o, i = .sixFrame o) ∧ n = 28 →
    ∃ t seg, exec i s = .next t ∧ t.trace = s.trace ++ seg ∧
      outBits seg = (List.range n).map fun k => (encode i).bits.testBit k

/-! ### The four commands -/

/-- OPEN (R110): the entry sequence, then `Active`. The order inside a cell is decision D5. -/
def Obligations.OpenRunsTheEntrySequenceAndEndsActive : Prop :=
  ∀ s : State, s.session = .closed → exec .openCmd s =
    .next { returned s .done with
      session := .active, rst := .released, dout := false, clk := false
      trace := s.trace ++ openTrace Config.engine }

/-- SIX (R111, R73): any opcode, sent unchanged as the SIX frame; `SESSION`, `RST`, `DIR` unchanged. -/
def Obligations.SixSendsAnyOpcodeUnchanged : Prop :=
  ∀ (opcode : Opcode) (s : State), s.session = .active → exec (.six opcode) s =
    .next { returned s .done with
      dout := opcode.getLsbD 23, clk := false
      trace := s.trace ++ outCells Config.engine (sixBits opcode) }

/-- REGOUT (R112): the REGOUT frame; the result is the sixteen samples, the first one its bit 0; `DOUT` is left 0 and
`DIR` back at `drive`. -/
def Obligations.RegoutReturnsTheSixteenSamples : Prop :=
  ∀ s : State, s.session = .active → exec .regout s =
    .next { returned s (.value (valueOf (samplesOf s 16))) with
      dir := .drive, dout := false, clk := false
      trace := s.trace ++ regoutTrace Config.engine (samplesOf s 16)
      targetBits := s.targetBits.drop 16
      draws := s.draws + 16 }

/-- "value = b_0*2^0 + b_1*2^1 + ... + b_15*2^15" (R42), with no truncation, and bit `i` of it is the `i`-th sample. -/
def Obligations.ReceivedValueIsTheSumOfItsSamples : Prop :=
  ∀ s : State,
    (valueOf (samplesOf s 16)).toNat = ∑ i ∈ Finset.range 16, (sampleAt s i).toNat * 2 ^ i ∧
    (∀ i < 16, (valueOf (samplesOf s 16)).getLsbD i = sampleAt s i) ∧
    assemble (samplesOf s 16) = (valueOf (samplesOf s 16)).toNat

/-- CLOSE (R113): reset low, 5 ms, release, then `Closed`; `DOUT`, `DIR`, `CLK` unchanged. The 5 ms are nominal (D13). -/
def Obligations.ClosePulsesResetAndEndsClosed : Prop :=
  ∀ s : State, s.session = .active → exec .closeCmd s =
    .next { returned s .done with
      session := .closed, rst := .released
      trace := s.trace ++ [.rst .low, .wait 5000, .rst .released] }

/-- A command in the wrong session state (R114): no event, no state change, and the refusal is returned. The refusal is
decision D3 of the spec; that it is a next state is log entry 4. -/
def Obligations.WrongSessionStateIsRefusedWithoutEffect : Prop :=
  ∀ s : State,
    (s.session = .active → exec .openCmd s = .next (turnedAway s .wrongSessionState)) ∧
    (s.session = .closed → (∀ opcode, exec (.six opcode) s = .next (turnedAway s .wrongSessionState)) ∧
      exec .regout s = .next (turnedAway s .wrongSessionState) ∧
      exec .closeCmd s = .next (turnedAway s .wrongSessionState))

/-- The totals of rule R117, for every configuration and every opcode: events, clock pulses, `DOUT` events, `DIN` events,
and the `WAIT` total; in the parameters of rule R5, and with the spec's bit counts the numbers of the rule's table. -/
def Obligations.CommandTotals : Prop :=
  ∀ (c : Config) (opcode : Opcode) (bs : List Bool), bs.length = c.nRegoutData →
    let total (j : Job) (n pulse out inn wait : Nat) : Prop :=
      (events j.script bs).length = n ∧ pulses (events j.script bs) = pulse ∧
      (outBits (events j.script bs)).length = out ∧ (inBits (events j.script bs)).length = inn ∧
      waitTotal (events j.script bs) = wait
    let head := c.nCtrl + c.nRegoutDelay
    total (openJob c) (4 + 5 * c.keyLen + 3 + 5 * c.nFlush) (c.keyLen + c.nFlush) (c.keyLen + c.nFlush) 0
      (2 * c.tRstSettle + c.tKeyHold + c.tEnterHold + 2 * c.p * (c.keyLen + c.nFlush)) ∧
    total (sixJob c opcode) (5 * (c.nCtrl + c.nOpcode)) (c.nCtrl + c.nOpcode) (c.nCtrl + c.nOpcode) 0
      (2 * c.p * (c.nCtrl + c.nOpcode)) ∧
    total (regoutJob c) (5 * head + 1 + 5 * c.nRegoutData + 1) (head + c.nRegoutData) head c.nRegoutData
      (2 * c.p * (head + c.nRegoutData)) ∧
    total (closeJob c) 3 0 0 0 c.tExitLow ∧
    (SpecCounts c →
      total (openJob c) (32 + 5 * c.keyLen) (c.keyLen + 5) (c.keyLen + 5) 0
        (2 * c.tRstSettle + c.tKeyHold + c.tEnterHold + 2 * c.p * (c.keyLen + 5)) ∧
      total (sixJob c opcode) 140 28 28 0 (56 * c.p) ∧
      total (regoutJob c) 142 28 12 16 (56 * c.p))

/-- "The only transitions are `Closed -> Active` at the end of OPEN and `Active -> Closed` at the end of CLOSE" (R115), of
all instructions; after CLOSE a further OPEN is admitted (decision D17). -/
def Obligations.OnlyOpenAndCloseChangeTheSession : Prop :=
  (∀ (i : Instr) (s t : State), exec i s = .next t →
    t.session = s.session ∨
    (i = .openCmd ∧ s.session = .closed ∧ t.session = .active) ∨
    (i = .closeCmd ∧ s.session = .active ∧ t.session = .closed)) ∧
  (∀ s t : State, s.session = .active → exec .closeCmd s = .next t →
    ∃ u, exec .openCmd t = .next u ∧ u.session = .active)

/-- No meaning stops: every request either runs to its end or is refused (R97, R116, R190). -/
def Obligations.EveryInstructionReachesANextState : Prop :=
  ∀ (i : Instr) (s : State), ∃ t, exec i s = .next t ∧ ∃ r, t.replies = s.replies ++ [r]

/-- "A refusal emits no event and changes no state" (R191), of all instructions. -/
def Obligations.RefusedRequestsDoNothing : Prop :=
  ∀ (i : Instr) (s t : State) (r : RefusalReason), exec i s = .next t → t.replies = s.replies ++ [.refused r] →
    t = turnedAway s r

/-- The levels of the lines after each command: the data line is driven with the retained `DOUT` (R24; decision D8, log
entry 12), and the reset line is at the released level after OPEN and after CLOSE, and where it was after SIX and REGOUT
(R22; decision D4). -/
def Obligations.LineLevelsAfterEachCommand : Prop :=
  ∀ (s t : State) (opcode : Opcode), s.dir = .drive →
    (s.session = .closed → exec .openCmd s = .next t →
      t.dataLine = some false ∧ t.resetHigh Config.engine = Config.engine.releasedHigh) ∧
    (s.session = .active → exec (.six opcode) s = .next t →
      t.dataLine = some (opcode.getLsbD 23) ∧ t.resetHigh Config.engine = s.resetHigh Config.engine) ∧
    (s.session = .active → exec .regout s = .next t →
      t.dataLine = some false ∧ t.resetHigh Config.engine = s.resetHigh Config.engine) ∧
    (s.session = .active → exec .closeCmd s = .next t →
      t.dataLine = s.dataLine ∧ t.resetHigh Config.engine = Config.engine.releasedHigh)

/-! ### The encoder -/

/-- NOP (R132): "the no-operation opcode (value 0)". -/
def Obligations.NopEncodesZero : Prop := Encodes .nop 0x000000 0#24

/-- LOAD-IMMEDIATE (R133). -/
def Obligations.LoadImmediateEncodes : Prop :=
  ∀ data reg : Nat, data < 65536 → reg < 16 →
    Encodes (.loadImmediate data reg) (0x200000 ||| (data <<< 4) ||| reg)
      (0b0010#4 ++ BitVec.ofNat 16 data ++ BitVec.ofNat 4 reg)

/-- STORE (R134): `addr[0]` is dropped, so `STORE(r, a)` equals `STORE(r, a | 1)`. -/
def Obligations.StoreEncodes : Prop :=
  ∀ reg addr : Nat, reg < 16 → addr < 65536 →
    Encodes (.store reg addr) (0x880000 ||| ((addr &&& 0xFFFE) <<< 3) ||| reg)
      (0b10001#5 ++ (BitVec.ofNat 16 addr).extractLsb' 1 15 ++ BitVec.ofNat 4 reg) ∧
    ∀ s, exec (.store reg (addr ||| 1)) s = exec (.store reg addr) s

/-- RETRIEVE (R135): `addr[0]` is dropped, and it differs from STORE of the same operands only in bit 19. -/
def Obligations.RetrieveEncodes : Prop :=
  ∀ addr reg : Nat, addr < 65536 → reg < 16 →
    Encodes (.retrieve addr reg) (0x800000 ||| ((addr &&& 0xFFFE) <<< 3) ||| reg)
      (0b10000#5 ++ (BitVec.ofNat 16 addr).extractLsb' 1 15 ++ BitVec.ofNat 4 reg) ∧
    (∀ s, exec (.retrieve (addr ||| 1) reg) s = exec (.retrieve addr reg) s) ∧
    (encode (.store reg addr)).bits = (encode (.retrieve addr reg)).bits + 2 ^ 19

/-- JUMP (R136): no mask, so an odd target is kept. -/
def Obligations.JumpEncodes : Prop :=
  ∀ addr : Nat, addr < 65536 →
    Encodes (.jump addr) (0x040000 ||| addr) (0b00000100#8 ++ BitVec.ofNat 16 addr)

/-- BIT-SET (R137): the bit number split across the two ends of the low half-word; `addr[0]` and `addr[15:13]` dropped. -/
def Obligations.BitSetEncodes : Prop :=
  ∀ addr bit : Nat, addr < 65536 → bit < 16 →
    Encodes (.bitSet addr bit)
      (0xA80000 ||| (addr &&& 0x1FFE) ||| ((bit &&& 0xE) <<< 12) ||| (bit &&& 0x1))
      (0b10101000#8 ++ (BitVec.ofNat 4 bit).extractLsb' 1 3 ++ (BitVec.ofNat 16 addr).extractLsb' 1 12 ++
        (BitVec.ofNat 4 bit).extractLsb' 0 1)

/-- The five table operations (R138 to R142), their bases and their selector bits (R68). -/
def Obligations.TableOperationsEncode : Prop :=
  ∀ src srcMode dst dstMode : Nat, src < 16 → srcMode < 6 → dst < 16 → dstMode < 6 →
    let operands := (dstMode <<< 11) ||| (dst <<< 7) ||| (srcMode <<< 4) ||| src
    Encodes (.tableReadLow src srcMode dst dstMode) (0xBA0000 ||| operands)
      (tblOpcode 0b000#3 src srcMode dst dstMode) ∧
    Encodes (.tableReadHigh src srcMode dst dstMode) (0xBA8000 ||| operands)
      (tblOpcode 0b010#3 src srcMode dst dstMode) ∧
    Encodes (.tableWriteLow src srcMode dst dstMode) (0xBB0000 ||| operands)
      (tblOpcode 0b100#3 src srcMode dst dstMode) ∧
    Encodes (.tableWriteHigh src srcMode dst dstMode) (0xBB8000 ||| operands)
      (tblOpcode 0b110#3 src srcMode dst dstMode) ∧
    Encodes (.tableWriteHighByte src srcMode dst dstMode) (0xBBC000 ||| operands)
      (tblOpcode 0b111#3 src srcMode dst dstMode)

/-- The operand types (R131), and a call outside them is refused with no effect, by `exec` and by the step of a host that
presents it (decision D9; log entries 4, 20). -/
def Obligations.IllTypedEncoderCallsAreRefused : Prop :=
  (∀ data reg, (Instr.loadImmediate data reg).wf = true ↔ data < 65536 ∧ reg < 16) ∧
  (∀ reg addr, (Instr.store reg addr).wf = true ↔ reg < 16 ∧ addr < 65536) ∧
  (∀ addr reg, (Instr.retrieve addr reg).wf = true ↔ addr < 65536 ∧ reg < 16) ∧
  (∀ addr, (Instr.jump addr).wf = true ↔ addr < 65536) ∧
  (∀ addr bit, (Instr.bitSet addr bit).wf = true ↔ addr < 65536 ∧ bit < 16) ∧
  (∀ src srcMode dst dstMode, ∀ op ∈ [Instr.tableReadLow, Instr.tableReadHigh, Instr.tableWriteLow,
      Instr.tableWriteHigh, Instr.tableWriteHighByte],
    (op src srcMode dst dstMode).wf = true ↔ src < 16 ∧ srcMode < 6 ∧ dst < 16 ∧ dstMode < 6) ∧
  (∀ (i : Instr) (s : State), i.wf = false → exec i s = .next (turnedAway s .operandOutOfRange)) ∧
  ∀ (i : Instr) (s : State) (rest : List Request), i.wf = false → s.inFlight = none → s.host = .op i :: rest →
    step s = .next (turnedAway { s with host := rest } .operandOutOfRange)

/-- What the encoder returns is the word the field tables give the call (R67), and reads back as the call, with the address
bits the encoding drops at 0 (R69). That the call completes in every state with the opcode as its reply and no other effect
is log entries 3 and 15, with R130. -/
def Obligations.EncoderResultIsTheTablesWord : Prop :=
  ∀ (i : Instr) (s : State), isEncoderCall i → i.wf = true →
    ∃ o : Opcode, exec i s = .next (returned s (.opcode o)) ∧ encode i = ⟨.opcode, 24, o.toNat⟩ ∧
      decode ⟨.opcode, 24, o.toNat⟩ = .ok i.canonical

/-! ### Decoding and encoding -/

/-- Decoding the word of any well-formed instruction gives the instruction back, up to the address bits its encoding drops
(R69), which come back as 0; an instruction that has none set comes back as it is. The layout of a command word is the
model's (log entry 1). -/
def Obligations.DecodeOfEncodeIsTheInstruction : Prop :=
  ∀ i : Instr, i.wf = true →
    decode (encode i) = .ok i.canonical ∧ i.canonical.canonical = i.canonical ∧
    (∀ reg addr, i = .store reg addr → addr % 2 = 0 → i.canonical = i) ∧
    (∀ addr reg, i = .retrieve addr reg → addr % 2 = 0 → i.canonical = i) ∧
    (∀ addr bit, i = .bitSet addr bit → addr % 2 = 0 → addr < 8192 → i.canonical = i) ∧
    ((∀ reg addr, i ≠ .store reg addr) → (∀ addr reg, i ≠ .retrieve addr reg) →
      (∀ addr bit, i ≠ .bitSet addr bit) → i.canonical = i)

/-- An opcode that decodes at all is the word of the call it decodes to, a well-formed one: no bit of an opcode is dropped
(R67, R71). -/
def Obligations.DecodedOpcodesEncodeBack : Prop :=
  ∀ (w : PortWord) (i : Instr), w.format = .opcode → decode w = .ok i →
    encode i = w ∧ i.wf = true ∧ i.canonical = i

/-- The reserved encodings are rejected by name (R71, R72): control codes 2 to 15, a REGOUT frame with a one among its delay
bits, reserved table selectors, modes 6 and 7. A step that is presented one stops (log entry 26), but for a table operation
with a mode of 6 or 7, which the engine refuses as an operand out of range (R131, U4) and goes on (log entry 4). -/
def Obligations.ReservedEncodingsAreRejectedByName : Prop :=
  (∀ b < 2 ^ 28, 2 ≤ b % 16 → decode ⟨.frame28, 28, b⟩ = .error .reservedControlCode) ∧
  (∀ b < 2 ^ 28, b % 16 = 1 → b / 16 % 256 ≠ 0 → decode ⟨.frame28, 28, b⟩ = .error .regoutDelayNotZero) ∧
  (∀ b < 2 ^ 24, b / 2 ^ 17 = 93 → b / 2 ^ 14 % 8 ∈ [1, 3, 5] →
    decode ⟨.opcode, 24, b⟩ = .error .reservedTableSelector) ∧
  (∀ b < 2 ^ 24, b / 2 ^ 17 = 93 → b / 2 ^ 14 % 8 ∉ [1, 3, 5] →
    6 ≤ b / 2 ^ 4 % 8 ∨ 6 ≤ b / 2 ^ 11 % 8 → decode ⟨.opcode, 24, b⟩ = .error .reservedTableMode) ∧
  (∀ (s : State) (w : PortWord) (rest : List Request) (e : DecodeError), s.inFlight = none →
    s.host = .word w :: rest → decode w = .error e →
    (e ≠ .reservedTableMode → step s = .refused (.undecodable e)) ∧
    (e = .reservedTableMode → step s = .next (turnedAway { s with host := rest } .operandOutOfRange)))

/-- The payload rows of the opcode table are pairwise disjoint on all words, and the result of every well-typed call matches
its own row and no other (R74). -/
def Obligations.OpcodeRowsAreDisjointAndComplete : Prop :=
  (opcodeRows.Pairwise fun r r' => ∀ w : Nat, ¬ (r.matches w = true ∧ r'.matches w = true)) ∧
  ∀ i : Instr, isEncoderCall i → i.wf = true →
    (opcodeRows.filter fun r => r.matches (encode i).bits).map OpcodeRow.mnemonic = [i.mnemonic]

/-- Words written out from the spec's encodings: the examples of rule R80, one word of each payload format of rule R67, a SIX,
a REGOUT and a FLUSH frame, the two cells, and two select codes of rule R79 (log entry 1). A KEY frame is left out, since
`KEY` has no value (log entry 6). -/
def Obligations.WrittenOutWordsDecodeToTheirInstructions : Prop :=
  decode ⟨.opcode, 24, 0x000000⟩ = .ok .nop ∧
  decode ⟨.opcode, 24, 0x041234⟩ = .ok (.jump 0x1234) ∧
  decode ⟨.opcode, 24, 0x200050⟩ = .ok (.loadImmediate 5 0) ∧
  decode ⟨.opcode, 24, 0xBBEBB6⟩ = .ok (.tableWriteHighByte 6 3 7 5) ∧
  decode ⟨.opcode, 24, 0xA8E761⟩ = .ok (.bitSet 0x0760 15) ∧
  decode ⟨.opcode, 24, 0x883C21⟩ = .ok (.store 1 0x0784) ∧
  decode ⟨.frame28, 28, 0x0412340⟩ = .ok (.sixFrame 0x041234#24) ∧
  decode ⟨.frame28, 28, 0x800D001⟩ = .ok .regoutFrame ∧
  decode ⟨.frame5, 5, 0b00000⟩ = .ok .flushFrame ∧
  decode ⟨.cellOut, 1, 1⟩ = .ok (.sendBit true) ∧
  decode ⟨.cellIn, 1, 0⟩ = .ok .recvBit ∧
  decode ⟨.command, 26, 0⟩ = .ok .openCmd ∧
  decode ⟨.command, 26, 3⟩ = .ok .closeCmd

/-! ### Helpers and packing -/

/-- `upper8` (R143): the formula `(x>>16)&0xFF` and the slice `x[23:16]` it is, in 8 bits; "Bits of `x` at 24 and above are
discarded by the mask." -/
def Obligations.UpperPartIsTheSliceBelowBitTwentyFour : Prop :=
  (∀ x : Nat, (upper8 x).toNat = (x >>> 16) &&& 0xFF ∧
    (∀ i < 8, (upper8 x).getLsbD i = x.testBit (16 + i)) ∧ upper8 x = upper8 (x % 2 ^ 24)) ∧
  upper8 0xFF0000 = 0xFF#8 ∧ upper8 0x00ABCD = 0x00#8 ∧ upper8 0x1234567 = 0x23#8

/-- `combine24` (R145): the low byte of `high` above `low`; `lower16` (R144): the slice `x[15:0]`. `upper8` and `lower16` are the
whole of an `x < 2^24`, which the spec derives from rules R143 and R144, and `combine24` undoes them on the read path. That
the operands of `combine24` are 16 bits is log entry 22. -/
def Obligations.CombineJoinsLowByteOfHighAboveLow : Prop :=
  (∀ low high : Half, combine24 low high = high.extractLsb' 0 8 ++ low) ∧
  (∀ (x : Nat) (high : Half), x < 2 ^ 24 → high.extractLsb' 0 8 = upper8 x →
    (combine24 (lower16 x) high).toNat = x) ∧
  (∀ x : Nat, (lower16 x).toNat = x % 2 ^ 16 ∧
    (x < 2 ^ 24 → ((upper8 x).toNat <<< 16) ||| (lower16 x).toNat = x))

/-- `fetch_next` (R146): the entry at the cursor or 0 past the end, the cursor advancing in both cases,
for entries of any width. -/
def Obligations.FetchNextReadsZeroPastTheEnd : Prop :=
  ∀ (w : Nat) (image : List (BitVec w)) (cursor : Nat),
    (∀ h : cursor < image.length, fetchNext image cursor = (image[cursor], cursor + 1)) ∧
    (image.length ≤ cursor → fetchNext image cursor = (0, cursor + 1))

/-- `PACK6` (R147): words 1, 3, 4, 6 whole, words 2 and 5 two low bytes. Its operands are 16 bits by decision D18. -/
def Obligations.PackSixInterleavesLowBytes : Prop :=
  ∀ d1 d2 d3 d4 d5 d6 d7 d8 : Half,
    (pack6 d1 d2 d3 d4 d5 d6 d7 d8).toList =
      [d1, d4.extractLsb' 0 8 ++ d2.extractLsb' 0 8, d3, d5, d8.extractLsb' 0 8 ++ d6.extractLsb' 0 8, d7]

/-- A row (R148): sixteen applications of `PACK6` over 128 consecutive entries, 96 words, zeros past the end. -/
def Obligations.RowIsSixteenPackings : Prop :=
  ∀ (image : List Half) (cursor : Nat),
    packRow image cursor =
      ((List.range 16).flatMap fun k =>
        let d (m : Nat) : Half := (image[cursor + 8 * k + m]?).getD 0
        (pack6 (d 0) (d 1) (d 2) (d 3) (d 4) (d 5) (d 6) (d 7)).toList, cursor + 128) ∧
    (packRow image cursor).1.length = 96 ∧
    (image.length ≤ cursor → (packRow image cursor).1 = List.replicate 96 0)

/-! ### Invariants of every step -/

/-- Between commands the port is at rest, `CLK = 0` and `DIR = drive` (R34): every step keeps it. -/
def Obligations.EveryStepLeavesTheLinesAtRest : Prop :=
  ∀ s t : State, s.idle → s.linesRest → step s = .next t → t.idle ∧ t.linesRest

/-- The reset-line verbs since power-on are those of whole sessions, and of one OPEN more exactly while `Active` (R34): so
OPENs completed minus CLOSEs completed is 1 while `Active` and 0 while `Closed`, and the last verb is `released` by the
last OPEN or CLOSE. Every step keeps it. -/
def Obligations.EveryStepKeepsTheSessionHistory : Prop :=
  ∀ (s t : State) (n : Nat), s.idle → s.sessionHistory n → step s = .next t →
    t.idle ∧ (t.sessionHistory n ∨ t.sessionHistory (n + 1))

/-- Each latch holds what its last event wrote (R9), for whatever power-on levels `p`: every step and every small step keeps
it, from every state, a command in flight or not. -/
def Obligations.LatchesAlwaysHoldTheirLastEvent : Prop :=
  (∀ p s t : State, s.latchesFollow p → step s = .next t → t.latchesFollow p) ∧
  (∀ p s t : State, s.latchesFollow p → microStep s = .next t → t.latchesFollow p)

/-- The discipline of the lines (R25, R93, R94, R95, R214), whatever the host presents: in the whole trace the data line is set
only in drive mode and sensed only in sense mode, the clock pulses are whole, and nothing happens while the clock is high.
Every step keeps it. -/
def Obligations.CommandsKeepTheLineDiscipline : Prop :=
  ∀ s t : State, s.idle → s.disciplined → step s = .next t → t.idle ∧ t.disciplined

/-- Power-on meets the four invariants, whatever the levels of the unspecified latches. -/
def Obligations.PowerOnMeetsTheInvariants : Prop :=
  ∀ d r, (State.powerOn d r).idle ∧ (State.powerOn d r).linesRest ∧ (State.powerOn d r).sessionHistory 0 ∧
    (State.powerOn d r).latchesFollow (State.powerOn d r) ∧ (State.powerOn d r).disciplined ∧
    ClockInPulse (State.powerOn d r)

/-- Events are only ever appended, by every step and every small step (R48): "no event of a later command precedes an event
of an earlier one"; so are replies (R203), hence a run that contains a refusal never comes to a good end (R119), while a
run without one does when CLOSE is its last command. -/
def Obligations.TraceAndRepliesOnlyGrow : Prop :=
  (∀ s t : State, step s = .next t → (∃ es, t.trace = s.trace ++ es) ∧ ∃ rs, t.replies = s.replies ++ rs) ∧
  (∀ s t : State, microStep s = .next t → (∃ es, t.trace = s.trace ++ es) ∧ ∃ rs, t.replies = s.replies ++ rs) ∧
  (∀ (h : HostProgram) (s t : State) (r : RefusalReason), .refused r ∈ s.replies → step s = .next t →
    ¬ t.goodEnd h) ∧
  (∀ (h : HostProgram) (s : State), s.session = .active → s.host = [] → (∀ r, .refused r ∉ s.replies) →
    h (s.replies ++ [.done]) = none → ∃ t, exec .closeCmd s = .next t ∧ t.goodEnd h)

/-! ### Event by event -/

/-- The small-step engine (R27): a command is accepted with `useq` at 0; each step emits event number `useq` and adds 1;
the command returns when `useq` equals the list's length. -/
def Obligations.SmallStepsEmitEventNumberUseq : Prop :=
  (∀ (s : State) (r : Request) (rest : List Request) (i : Instr), s.inFlight = none → s.host = r :: rest →
    r.read = .run i → (s.refusal (jobOf Config.engine i) = none) →
    ∃ t, microStep s = .next t ∧ t.inFlight = some (jobOf Config.engine i) ∧ t.useq = 0 ∧ t.trace = s.trace) ∧
  (∀ (s : State) (j : Job) (a : Act), s.inFlight = some j → j.script[s.useq]? = some a →
    ∃ t, microStep s = .next t ∧ t.inFlight = some j ∧ t.useq = s.useq + 1 ∧ t.session = s.session ∧
      t.trace = s.trace ++ [match a with | .emit e => e | .sample => .din (sampleAt s 0)]) ∧
  (∀ (s : State) (j : Job), s.inFlight = some j → s.useq = j.script.length →
    ∃ t, microStep s = .next t ∧ t.inFlight = none ∧ t.trace = s.trace ∧ t.session = j.becomes.getD s.session ∧
      ∃ r, t.replies = s.replies ++ [r])

/-- `CLK = 1` only between the two events of one pulse (R25): every small step keeps it. -/
def Obligations.ClockIsHighOnlyInsideAPulse : Prop :=
  ∀ s t : State, ClockInPulse s → microStep s = .next t → ClockInPulse t

/-- The two descriptions of the engine agree (R10, R27): what a step does at once, small steps do event by event, from every
state, a command in flight or not; an admitted request takes one small step for its admission, one for each event, and
one for its return. -/
def Obligations.SmallStepsRefineTheStep : Prop :=
  (∀ s t : State, step s = .next t → ∃ n, microRun n s = .next t) ∧
  (∀ (s : State) (r : Request) (rest : List Request) (i : Instr), s.inFlight = none → s.host = r :: rest →
    r.read = .run i → s.refusal (jobOf Config.engine i) = none →
    microRun ((jobOf Config.engine i).script.length + 2) s = step s) ∧
  (∀ (s : State) (r : Refusal), step s = .refused r → microRun 1 s = .refused r)

/-! ### What nothing depends on -/

/-- Nothing the engine does depends on what the target shows (R11, R32): two runs of one instruction that differ only in the
target's bits end alike but for the bits sensed and the values returned. -/
def Obligations.TheTargetInfluencesOnlyWhatIsRead : Prop :=
  ∀ (i : Instr) (s : State) (bs bs' : List Bool) (n n' : Nat),
    ∃ t t', exec i { s with targetBits := bs, draws := n } = .next t ∧
      exec i { s with targetBits := bs', draws := n' } = .next t' ∧ forgetTarget t = forgetTarget t'

/-- "no state component changes because time passed, and no command's result depends on a `WAIT`" (R223, decision D24): two
engines that differ only in their durations do the same but for the durations recorded. -/
def Obligations.TimingCarriesNoFunction : Prop :=
  ∀ (c : Config) (p settle key enter exit high : Nat) (i : Instr) (s : State),
    let c' := { c with
      p := p, tRstSettle := settle, tKeyHold := key, tEnterHold := enter, tExitLow := exit, tClkHigh := high }
    forgetWaits (s.perform (jobOf c i)) = forgetWaits (s.perform (jobOf c' i)) ∧
    exec i s = .next (s.perform (jobOf Config.engine i))

/-- Bits of `KEY` at and above `KEY_LEN` are ignored (R110(b), decision D11). -/
def Obligations.KeyBitsAboveItsLengthAreIgnored : Prop :=
  ∀ (c : Config) (i : Instr), jobOf { c with key := c.key % 2 ^ c.keyLen } i = jobOf c i

/-! ### The host at the port -/

/-- What any host can put on the lines (R60, R66, R72, R196): at a free port a step leaves the trace as it is, or, in `Closed`,
it is an OPEN, or, in `Active`, a frame that begins with the control code of SIX or of REGOUT, or a CLOSE. No frame without
a control code is sent while `Active`, no other code is sent, and in `Closed` nothing but OPEN. The order inside a cell is
decision D5. -/
def Obligations.HostRequestsPutOnlyTheCommandsOnTheLines : Prop :=
  ∀ s t : State, s.inFlight = none → step s = .next t →
    (t.trace = s.trace ∧ t.session = s.session) ∨
    (s.session = .closed ∧ t.session = .active ∧ t.trace = s.trace ++ openTrace Config.engine) ∨
    (s.session = .active ∧ t.session = .active ∧ ∃ seg, t.trace = s.trace ++ seg ∧
      (((∃ opcode, seg = outCells Config.engine (sixBits opcode)) ∧
          (outBits seg).take 4 = [false, false, false, false]) ∨
       ((∃ bs : List Bool, bs.length = 16 ∧ seg = regoutTrace Config.engine bs) ∧
          (outBits seg).take 4 = [true, false, false, false]))) ∨
    (s.session = .active ∧ t.session = .closed ∧ t.trace = s.trace ++ closeTrace Config.engine)

/-- The runs without end (R119, R202; U9): a host with an infinite program, whatever requests the port takes or refuses it
consists of, never comes to an end, and neither does a host in its completion poll where every REGOUT returns a value with a bit of the mask set. That host and target stand beside the
engine as functions is log entry 27; that a refused request is a next state is log entry 4; and that the poll of a profile
whose addresses are wider than 16 bits presents its ill-typed calls, has them refused (R131) and goes on is log entry 23. -/
def Obligations.UnboundedHostsRunForever : Prop :=
  (∀ (w : World) (f : Nat → Request) (d : Bool) (v : ResetDrive), w.host = .forever f →
    (∀ n r, (f n).read ≠ .stop r) → w.endless (State.powerOn d v)) ∧
  (∀ (w : World) (h : HostProfile) (next : HostProgram) (d : Bool) (v : ResetDrive),
    w.host = .ask [.openCmd] (pollProgram h next) → (∀ k, stillWriting h.wrMask (w.value k) = true) →
    w.endless (State.powerOn d v))

/-- The completion poll ends with the first value whose mask bits are clear (R164): a session that polls and then closes is over
after OPEN, `k + 1` rounds of three requests, and CLOSE, where the `k`-th value is that one. It is at its good end (R119)
exactly if the two addresses of the poll are 16 bits: else their calls are refused in each round (R131), and the host, which
the model lets go on (log entry 23), has a refusal among its replies. -/
def Obligations.ThePollEndsWhenTheMaskClears : Prop :=
  ∀ (w : World) (h : HostProfile) (k : Nat) (d : Bool) (v : ResetDrive), w.host = inSession (pollProgram h) →
    (∀ j < k, stillWriting h.wrMask (w.value j) = true) → stillWriting h.wrMask (w.value k) = false →
    ∃ t, w.run (1 + 3 * (k + 1) + 1) (State.powerOn d v) = .next t ∧ t.over w.host ∧ t.session = .closed ∧
      (t.goodEnd w.host ↔ h.nvmconAddr < 2 ^ 16 ∧ h.visiAddr < 2 ^ 16)
end

