-- ==== Sys2Proof/Laws/Encoding.lean ====
section
/-! SUPPORT. The encoder's formulas and the field tables: the fields of one formula never overlap, so OR is addition (R130). -/

namespace Sys2Proof

open Sys2Proof.Machine

/-- OR with a number below the lowest bit of a multiple is addition. -/
theorem or_eq_add (a b i : Nat) (hb : b < 2 ^ i) : (2 ^ i * a) ||| b = 2 ^ i * a + b :=
  (Nat.two_pow_add_eq_or_of_lt hb a).symm

/-- An even mask drops bit 0 and keeps `k` bits above it. -/
theorem and_even_mask (x k : Nat) : x &&& (2 * (2 ^ k - 1)) = 2 * (x / 2 % 2 ^ k) := by
  apply Nat.eq_of_testBit_eq
  intro i
  cases i with
  | zero => simp [Nat.testBit_zero]
  | succ i => simp [Nat.testBit_succ, Nat.and_div_two]

theorem fileAddress_eq (addr : Nat) : fileAddress addr = 2 ^ 4 * (addr / 2 % 2 ^ 15) := by
  have h : addr &&& 0xFFFE = 2 * (addr / 2 % 2 ^ 15) := and_even_mask addr 15
  rw [fileAddress, h, Nat.shiftLeft_eq]
  ring

theorem bitSetAddress_eq (addr : Nat) : bitSetAddress addr = 2 * (addr / 2 % 2 ^ 12) := and_even_mask addr 12

theorem bitSetNumber_eq (bit : Nat) : bitSetNumber bit = 2 ^ 13 * (bit / 2 % 2 ^ 3) + bit % 2 := by
  have h : bit &&& 0xE = 2 * (bit / 2 % 2 ^ 3) := and_even_mask bit 3
  have h1 : bit &&& 0x1 = bit % 2 := Nat.and_one_is_mod bit
  rw [← or_eq_add _ _ 13 (by omega), bitSetNumber, h1, h, Nat.shiftLeft_eq]
  congr 1
  ring

theorem tableOperands_eq {src srcMode dst : Nat} (dstMode : Nat) (hs : src < 2 ^ 4) (hm : srcMode < 2 ^ 3)
    (hd : dst < 2 ^ 4) :
    tableOperands src srcMode dst dstMode = dstMode * 2 ^ 11 + dst * 2 ^ 7 + srcMode * 2 ^ 4 + src := by
  have h1 := or_eq_add dstMode (2 ^ 7 * dst) 11 (by omega)
  have h2 := or_eq_add (2 ^ 4 * dstMode + dst) (2 ^ 4 * srcMode) 7 (by omega)
  have h3 := or_eq_add (2 ^ 3 * (2 ^ 4 * dstMode + dst) + srcMode) src 4 (by omega)
  simp only [tableOperands, Nat.shiftLeft_eq]
  rw [Nat.mul_comm dstMode, Nat.mul_comm dst, Nat.mul_comm srcMode, h1]
  rw [show 2 ^ 11 * dstMode + 2 ^ 7 * dst = 2 ^ 7 * (2 ^ 4 * dstMode + dst) by ring, h2]
  rw [show 2 ^ 7 * (2 ^ 4 * dstMode + dst) + 2 ^ 4 * srcMode = 2 ^ 4 * (2 ^ 3 * (2 ^ 4 * dstMode + dst) + srcMode) by ring,
    h3]

/-! ### Each formula is its field table -/

theorem loadImmediateFormula_eq {data reg : Nat} (hd : data < 65536) (hr : reg < 16) :
    loadImmediateFormula data reg = litFields data reg := by
  have h1 := or_eq_add 2 (2 ^ 4 * data) 20 (by omega)
  have h2 := or_eq_add (2 ^ 17 + data) reg 4 (by omega)
  simp only [loadImmediateFormula, Nat.shiftLeft_eq, litFields]
  rw [Nat.mul_comm data, show (0x200000 : Nat) = 2 ^ 20 * 2 from rfl, h1,
    show 2 ^ 20 * 2 + 2 ^ 4 * data = 2 ^ 4 * (2 ^ 17 + data) by ring, h2]
  ring

theorem fileFormula_eq (s : Nat) {addr reg : Nat} (ha : addr < 65536) (hr : reg < 16) :
    (2 ^ 19 * (16 + s)) ||| fileAddress addr ||| reg = fileFields s addr reg := by
  have h1 := or_eq_add (16 + s) (2 ^ 4 * (addr / 2 % 2 ^ 15)) 19 (by omega)
  have h2 := or_eq_add (2 ^ 15 * (16 + s) + addr / 2 % 2 ^ 15) reg 4 (by omega)
  rw [fileAddress_eq, h1,
    show 2 ^ 19 * (16 + s) + 2 ^ 4 * (addr / 2 % 2 ^ 15) = 2 ^ 4 * (2 ^ 15 * (16 + s) + addr / 2 % 2 ^ 15) by ring, h2,
    fileFields, Nat.mod_eq_of_lt (by omega : addr / 2 < 2 ^ 15)]
  ring

theorem storeFormula_eq {reg addr : Nat} (hr : reg < 16) (ha : addr < 65536) :
    storeFormula reg addr = fileFields 1 addr reg := fileFormula_eq 1 ha hr

theorem retrieveFormula_eq {addr reg : Nat} (ha : addr < 65536) (hr : reg < 16) :
    retrieveFormula addr reg = fileFields 0 addr reg := fileFormula_eq 0 ha hr

theorem jumpFormula_eq {addr : Nat} (ha : addr < 65536) : jumpFormula addr = gotoFields addr := by
  rw [jumpFormula, gotoFields, show (0x040000 : Nat) = 2 ^ 16 * 4 from rfl, or_eq_add 4 addr 16 (by omega), Nat.mul_comm]

theorem bitSetFormula_eq {addr bit : Nat} (hb : bit < 16) : bitSetFormula addr bit = bsetFields addr bit := by
  have h0 : bit / 2 % 2 ^ 3 = bit / 2 := by omega
  have h1 := or_eq_add 168 (2 * (addr / 2 % 2 ^ 12)) 16 (by omega)
  have h2 := or_eq_add (bit / 2) (2 * (addr / 2 % 2 ^ 12)) 13 (by omega)
  have h3 := or_eq_add (bit / 2 * 2 ^ 12 + addr / 2 % 2 ^ 12) (bit % 2) 1 (by omega)
  have h4 := or_eq_add 168 (2 ^ 13 * (bit / 2) + 2 * (addr / 2 % 2 ^ 12) + bit % 2) 16 (by omega)
  have hn : bitSetNumber bit = (2 ^ 13 * (bit / 2)) ||| (bit % 2) := by
    rw [bitSetNumber_eq, h0, or_eq_add _ _ 13 (by omega)]
  rw [bitSetFormula, hn, bitSetAddress_eq, Nat.or_assoc, ← Nat.or_assoc (2 * (addr / 2 % 2 ^ 12)),
    Nat.or_comm (2 * (addr / 2 % 2 ^ 12)), h2,
    show 2 ^ 13 * (bit / 2) + 2 * (addr / 2 % 2 ^ 12) = 2 ^ 1 * (bit / 2 * 2 ^ 12 + addr / 2 % 2 ^ 12) by ring, h3,
    show (0xA80000 : Nat) = 2 ^ 16 * 168 from rfl,
    show 2 ^ 1 * (bit / 2 * 2 ^ 12 + addr / 2 % 2 ^ 12) + bit % 2 =
      2 ^ 13 * (bit / 2) + 2 * (addr / 2 % 2 ^ 12) + bit % 2 by ring, h4]
  simp only [bsetFields, field]
  omega

/-- The five table operations: the base holds `1011101` and the selector bits, the operands fill bits 13:0 (R67, R68). -/
theorem tableFormula_eq (w h b : Nat) {src srcMode dst dstMode : Nat} (hs : src < 16) (hm : srcMode < 6) (hd : dst < 16)
    (hn : dstMode < 6) :
    (2 ^ 14 * (93 * 8 + w * 4 + h * 2 + b)) ||| tableOperands src srcMode dst dstMode =
      tblFields w h b src srcMode dst dstMode := by
  rw [tableOperands_eq dstMode (by omega) (by omega) (by omega), or_eq_add _ _ 14 (by omega), tblFields]
  ring

end Sys2Proof
end

