-- ==== Sys2Proof/Laws/State.lean ====
section
/-! SUPPORT. The state's fields after each of the shared operations, one lemma per field per update. -/

namespace Sys2Proof.Machine

variable (s : State)

/-! ### `emit` -/

@[simp] theorem emit_session (e : Event) : (s.emit e).session = s.session := by cases e <;> rfl
@[simp] theorem emit_useq (e : Event) : (s.emit e).useq = s.useq := by cases e <;> rfl
@[simp] theorem emit_inFlight (e : Event) : (s.emit e).inFlight = s.inFlight := by cases e <;> rfl
@[simp] theorem emit_rx (e : Event) : (s.emit e).rx = s.rx := by cases e <;> rfl
@[simp] theorem emit_replies (e : Event) : (s.emit e).replies = s.replies := by cases e <;> rfl
@[simp] theorem emit_host (e : Event) : (s.emit e).host = s.host := by cases e <;> rfl
@[simp] theorem emit_targetBits (e : Event) : (s.emit e).targetBits = s.targetBits := by cases e <;> rfl
@[simp] theorem emit_draws (e : Event) : (s.emit e).draws = s.draws := by cases e <;> rfl
@[simp] theorem emit_trace (e : Event) : (s.emit e).trace = s.trace ++ [e] := rfl

@[simp] theorem emit_rst_rst (v : ResetDrive) : (s.emit (.rst v)).rst = v := rfl
@[simp] theorem emit_rst_dir (v : ResetDrive) : (s.emit (.rst v)).dir = s.dir := rfl
@[simp] theorem emit_rst_dout (v : ResetDrive) : (s.emit (.rst v)).dout = s.dout := rfl
@[simp] theorem emit_rst_clk (v : ResetDrive) : (s.emit (.rst v)).clk = s.clk := rfl
@[simp] theorem emit_dir_rst (m : DataDir) : (s.emit (.dir m)).rst = s.rst := rfl
@[simp] theorem emit_dir_dir (m : DataDir) : (s.emit (.dir m)).dir = m := rfl
@[simp] theorem emit_dir_dout (m : DataDir) : (s.emit (.dir m)).dout = s.dout := rfl
@[simp] theorem emit_dir_clk (m : DataDir) : (s.emit (.dir m)).clk = s.clk := rfl
@[simp] theorem emit_dout_rst (b : Bool) : (s.emit (.dout b)).rst = s.rst := rfl
@[simp] theorem emit_dout_dir (b : Bool) : (s.emit (.dout b)).dir = s.dir := rfl
@[simp] theorem emit_dout_dout (b : Bool) : (s.emit (.dout b)).dout = b := rfl
@[simp] theorem emit_dout_clk (b : Bool) : (s.emit (.dout b)).clk = s.clk := rfl
@[simp] theorem emit_clk_rst (b : Bool) : (s.emit (.clk b)).rst = s.rst := rfl
@[simp] theorem emit_clk_dir (b : Bool) : (s.emit (.clk b)).dir = s.dir := rfl
@[simp] theorem emit_clk_dout (b : Bool) : (s.emit (.clk b)).dout = s.dout := rfl
@[simp] theorem emit_clk_clk (b : Bool) : (s.emit (.clk b)).clk = b := rfl
@[simp] theorem emit_din_rst (b : Bool) : (s.emit (.din b)).rst = s.rst := rfl
@[simp] theorem emit_din_dir (b : Bool) : (s.emit (.din b)).dir = s.dir := rfl
@[simp] theorem emit_din_dout (b : Bool) : (s.emit (.din b)).dout = s.dout := rfl
@[simp] theorem emit_din_clk (b : Bool) : (s.emit (.din b)).clk = s.clk := rfl
@[simp] theorem emit_wait_rst (t : Nat) : (s.emit (.wait t)).rst = s.rst := rfl
@[simp] theorem emit_wait_dir (t : Nat) : (s.emit (.wait t)).dir = s.dir := rfl
@[simp] theorem emit_wait_dout (t : Nat) : (s.emit (.wait t)).dout = s.dout := rfl
@[simp] theorem emit_wait_clk (t : Nat) : (s.emit (.wait t)).clk = s.clk := rfl

/-! ### `drawn` -/

@[simp] theorem drawn_session : s.drawn.session = s.session := rfl
@[simp] theorem drawn_rst : s.drawn.rst = s.rst := rfl
@[simp] theorem drawn_dir : s.drawn.dir = s.dir := rfl
@[simp] theorem drawn_dout : s.drawn.dout = s.dout := rfl
@[simp] theorem drawn_clk : s.drawn.clk = s.clk := rfl
@[simp] theorem drawn_trace : s.drawn.trace = s.trace := rfl
@[simp] theorem drawn_useq : s.drawn.useq = s.useq := rfl
@[simp] theorem drawn_inFlight : s.drawn.inFlight = s.inFlight := rfl
@[simp] theorem drawn_rx : s.drawn.rx = s.rx := rfl
@[simp] theorem drawn_replies : s.drawn.replies = s.replies := rfl
@[simp] theorem drawn_host : s.drawn.host = s.host := rfl
@[simp] theorem drawn_targetBits : s.drawn.targetBits = s.targetBits.tail := rfl
@[simp] theorem drawn_draws : s.drawn.draws = s.draws + 1 := rfl

/-! ### `refuse`, `accept`, `complete` -/

@[simp] theorem refuse_session (r : RefusalReason) : (s.refuse r).session = s.session := rfl
@[simp] theorem refuse_rst (r : RefusalReason) : (s.refuse r).rst = s.rst := rfl
@[simp] theorem refuse_dir (r : RefusalReason) : (s.refuse r).dir = s.dir := rfl
@[simp] theorem refuse_dout (r : RefusalReason) : (s.refuse r).dout = s.dout := rfl
@[simp] theorem refuse_clk (r : RefusalReason) : (s.refuse r).clk = s.clk := rfl
@[simp] theorem refuse_trace (r : RefusalReason) : (s.refuse r).trace = s.trace := rfl
@[simp] theorem refuse_useq (r : RefusalReason) : (s.refuse r).useq = s.useq := rfl
@[simp] theorem refuse_inFlight (r : RefusalReason) : (s.refuse r).inFlight = s.inFlight := rfl
@[simp] theorem refuse_rx (r : RefusalReason) : (s.refuse r).rx = s.rx := rfl
@[simp] theorem refuse_replies (r : RefusalReason) : (s.refuse r).replies = s.replies ++ [.refused r] := rfl
@[simp] theorem refuse_host (r : RefusalReason) : (s.refuse r).host = s.host := rfl
@[simp] theorem refuse_targetBits (r : RefusalReason) : (s.refuse r).targetBits = s.targetBits := rfl
@[simp] theorem refuse_draws (r : RefusalReason) : (s.refuse r).draws = s.draws := rfl

@[simp] theorem accept_session (j : Job) : (s.accept j).session = s.session := rfl
@[simp] theorem accept_rst (j : Job) : (s.accept j).rst = s.rst := rfl
@[simp] theorem accept_dir (j : Job) : (s.accept j).dir = s.dir := rfl
@[simp] theorem accept_dout (j : Job) : (s.accept j).dout = s.dout := rfl
@[simp] theorem accept_clk (j : Job) : (s.accept j).clk = s.clk := rfl
@[simp] theorem accept_trace (j : Job) : (s.accept j).trace = s.trace := rfl
@[simp] theorem accept_useq (j : Job) : (s.accept j).useq = 0 := rfl
@[simp] theorem accept_inFlight (j : Job) : (s.accept j).inFlight = some j := rfl
@[simp] theorem accept_rx (j : Job) : (s.accept j).rx = [] := rfl
@[simp] theorem accept_replies (j : Job) : (s.accept j).replies = s.replies := rfl
@[simp] theorem accept_host (j : Job) : (s.accept j).host = s.host := rfl
@[simp] theorem accept_targetBits (j : Job) : (s.accept j).targetBits = s.targetBits := rfl
@[simp] theorem accept_draws (j : Job) : (s.accept j).draws = s.draws := rfl

@[simp] theorem complete_session (j : Job) : (s.complete j).session = j.becomes.getD s.session := rfl
@[simp] theorem complete_rst (j : Job) : (s.complete j).rst = s.rst := rfl
@[simp] theorem complete_dir (j : Job) : (s.complete j).dir = s.dir := rfl
@[simp] theorem complete_dout (j : Job) : (s.complete j).dout = s.dout := rfl
@[simp] theorem complete_clk (j : Job) : (s.complete j).clk = s.clk := rfl
@[simp] theorem complete_trace (j : Job) : (s.complete j).trace = s.trace := rfl
@[simp] theorem complete_useq (j : Job) : (s.complete j).useq = 0 := rfl
@[simp] theorem complete_inFlight (j : Job) : (s.complete j).inFlight = none := rfl
@[simp] theorem complete_rx (j : Job) : (s.complete j).rx = [] := rfl
@[simp] theorem complete_replies (j : Job) : (s.complete j).replies = s.replies ++ [s.reply j.answer] := rfl
@[simp] theorem complete_host (j : Job) : (s.complete j).host = s.host := rfl
@[simp] theorem complete_targetBits (j : Job) : (s.complete j).targetBits = s.targetBits := rfl
@[simp] theorem complete_draws (j : Job) : (s.complete j).draws = s.draws := rfl

end Sys2Proof.Machine
end

