-- ==== Sys2Proof/Laws/Ops.lean ====
section
/-! SUPPORT. What the shared operations do, said once: a run of actions, an operation performed. -/

namespace Sys2Proof.Machine

/-! ### Samples -/

/-- The next sampled bit: the input list's, else the free one. -/
theorem sampled_eq (s : State) : s.sampled = (s.targetBits.head?).getD (Config.freeBit s.draws) := by
  unfold State.sampled
  cases s.targetBits <;> rfl

/-- Samples are numbered from the state they are taken in. -/
theorem samples_eq (s : State) (n : Nat) :
    s.samples n = (List.range n).map fun i => (s.targetBits[i]?).getD (Config.freeBit (s.draws + i)) := by
  induction n generalizing s with
  | zero => rfl
  | succ n ih =>
    rw [State.samples, ih, List.range_succ_eq_map, List.map_cons, List.map_map, sampled_eq]
    congr 1
    · cases s.targetBits <;> rfl
    · refine List.map_congr_left fun i _ => ?_
      simp [Function.comp, Nat.add_comm, Nat.add_left_comm]

@[simp] theorem samples_length (s : State) (n : Nat) : (s.samples n).length = n := by
  simp [samples_eq]

/-! ### A run of actions -/

@[simp] theorem acts_nil (s : State) : s.acts [] = s := rfl

@[simp] theorem acts_cons (s : State) (a : Act) (as : List Act) : s.acts (a :: as) = (s.act a).acts as := rfl

theorem acts_append (s : State) (as bs : List Act) : s.acts (as ++ bs) = (s.acts as).acts bs := by
  induction as generalizing s with
  | nil => rfl
  | cons a as ih => exact ih _

/-- The latches after a sequence of events: each holds what its last event wrote (R9). -/
def latched (s : State) (tr : List Event) : State :=
  { s with
    rst := ((resetVerbs tr).getLast?).getD s.rst
    dir := ((tr.filterMap Event.dirMode).getLast?).getD s.dir
    dout := ((outBits tr).getLast?).getD s.dout
    clk := ((tr.filterMap Event.clkLevel).getLast?).getD s.clk }

theorem getLast_cons_getD {α : Type} (a d : α) (l : List α) :
    ((a :: l).getLast?).getD d = (l.getLast?).getD a := by
  cases l with
  | nil => rfl
  | cons b l =>
    rw [List.getLast?_cons_cons]
    cases h : (b :: l).getLast? with
    | none => simp at h
    | some x => rfl

@[simp] theorem latched_host (s : State) (tr : List Event) : (latched s tr).host = s.host := rfl

theorem latched_cons (s : State) (e : Event) (tr : List Event) :
    latched s (e :: tr) = latched (s.latch e) tr := by
  cases e <;>
    simp [latched, State.latch, resetVerbs, outBits, Event.resetVerb, Event.doutBit, Event.dirMode, Event.clkLevel,
      getLast_cons_getD]

/-- Everything a run of actions does: its events are appended in order and latched, `useq` counts them, and its samples
are consumed and kept (R8, R27, R48). -/
theorem acts_eq (s : State) (as : List Act) :
    s.acts as =
      { latched s (events as (s.samples (sampleCount as))) with
        trace := s.trace ++ events as (s.samples (sampleCount as))
        useq := s.useq + as.length
        rx := s.rx ++ s.samples (sampleCount as)
        targetBits := s.targetBits.drop (sampleCount as)
        draws := s.draws + sampleCount as } := by
  induction as generalizing s with
  | nil => simp [latched, events, sampleCount, State.samples, resetVerbs, outBits]
  | cons a as ih =>
    cases a with
    | emit e =>
      have hs : ((s.act (.emit e)).samples (sampleCount as)) = s.samples (sampleCount as) := by
        simp [samples_eq, State.act]
      have hc : sampleCount (Act.emit e :: as) = sampleCount as := by simp [sampleCount]
      rw [acts_cons, ih, hs, hc, events, latched_cons]
      cases e <;>
        simp [State.act, State.emit, State.latch, latched, Nat.add_comm, Nat.add_left_comm]
    | sample =>
      have hs : ((s.act .sample).samples (sampleCount as)) = s.drawn.samples (sampleCount as) := by
        simp [samples_eq, State.act]
      have hc : sampleCount (Act.sample :: as) = sampleCount as + 1 := by simp [sampleCount]
      rw [acts_cons, ih, hs, hc, State.samples, events, latched_cons]
      simp [State.act, State.emit, State.latch, latched, State.drawn, Nat.add_comm, Nat.add_left_comm]
      omega

/-! ### The events of a list of actions -/

@[simp] theorem sampleCount_append (as bs : List Act) : sampleCount (as ++ bs) = sampleCount as + sampleCount bs := by
  simp [sampleCount]

/-- The events of two lists in turn, the first taking the first samples. -/
theorem events_append (as bs : List Act) (xs ys : List Bool) (h : xs.length = sampleCount as) :
    events (as ++ bs) (xs ++ ys) = events as xs ++ events bs ys := by
  induction as generalizing xs with
  | nil =>
    have hx : xs = [] := by simpa [sampleCount] using h
    simp [hx, events]
  | cons a as ih =>
    cases a with
    | emit e => simpa [events] using ih xs (by simpa [sampleCount] using h)
    | sample =>
      cases xs with
      | nil => simp [sampleCount] at h
      | cons x xs => simpa [events] using ih xs (by simpa [sampleCount] using h)

/-- A list that takes no sample has the same events whatever the samples. -/
theorem events_no_sample (as : List Act) (h : sampleCount as = 0) (xs : List Bool) : events as xs = events as [] := by
  induction as with
  | nil => rfl
  | cons a as ih =>
    cases a with
    | emit e => simpa [events] using ih (by simpa [sampleCount] using h)
    | sample => simp [sampleCount] at h

/-- A list that takes no sample leaves them all to the list after it. -/
theorem events_append_no_sample (as bs : List Act) (xs : List Bool) (h : sampleCount as = 0) :
    events (as ++ bs) xs = events as [] ++ events bs xs := by
  rw [← events_append as bs [] xs h.symm]; rfl

/-- One event per action (R27). -/
@[simp] theorem events_length (as : List Act) (xs : List Bool) : (events as xs).length = as.length := by
  induction as generalizing xs with
  | nil => rfl
  | cons a as ih => cases a <;> cases xs <;> simp [events, ih]

/-! ### Operations -/

theorem perform_refused (s : State) (j : Job) (r : RefusalReason) (h : s.refusal j = some r) :
    s.perform j = s.refuse r := by
  simp [State.perform, h]

/-- An admitted operation, whole: the events of its list from its own samples, the latches they leave, the session it
leaves, its reply, and the port free again. -/
theorem perform_admitted (s : State) (j : Job) (h : s.refusal j = none) :
    s.perform j =
      { latched s (events j.script (s.samples (sampleCount j.script))) with
        session := j.becomes.getD s.session
        trace := s.trace ++ events j.script (s.samples (sampleCount j.script))
        useq := 0
        inFlight := none
        rx := []
        replies := s.replies ++
          [match j.answer with
           | .nothing => .done
           | .bit => .bit (BitVec.ofNat 1 (assemble (s.samples (sampleCount j.script))))
           | .value => .value (BitVec.ofNat 16 (assemble (s.samples (sampleCount j.script))))
           | .opcode o => .opcode o]
        targetBits := s.targetBits.drop (sampleCount j.script)
        draws := s.draws + sampleCount j.script } := by
  have hs : (s.accept j).samples (sampleCount j.script) = s.samples (sampleCount j.script) := by
    simp [samples_eq]
  simp only [State.perform, h, State.finish, accept_useq, List.drop_zero, acts_eq, hs]
  cases hj : j.answer <;> simp [State.complete, State.reply, State.accept, latched, hj]

/-- An operation that names no session state and is well typed is always admitted. -/
@[simp] theorem refusal_none (s : State) (j : Job) (hn : j.needs = none) (ht : j.typed = true) : s.refusal j = none := by
  simp [State.refusal, hn, ht]

/-- `assemble` reads the bits least significant first (R42). -/
theorem assemble_testBit (bs : List Bool) (i : Nat) : (assemble bs).testBit i = (bs[i]?).getD false := by
  induction bs generalizing i with
  | nil => simp [assemble]
  | cons b bs ih =>
    cases i with
    | zero => cases b <;> simp [assemble, Nat.testBit_zero]
    | succ i =>
      have : (b.toNat + 2 * assemble bs) / 2 = assemble bs := by
        cases b <;> simp
        omega
      simp [assemble, Nat.testBit_succ, this, ih]

theorem assemble_lt (bs : List Bool) : assemble bs < 2 ^ bs.length := by
  induction bs with
  | nil => simp [assemble]
  | cons b bs ih =>
    have : b.toNat < 2 := by cases b <;> simp
    rw [assemble, List.length_cons, Nat.pow_succ]
    omega

end Sys2Proof.Machine
end

