-- ==== Sys2Proof/Laws/Wire.lean ====
section
/-! SUPPORT. The events of the cells, the frames and the commands in closed form, and what the latches and the counts of
rule R117 make of a run of cells. -/

namespace Sys2Proof.Machine

variable (c : Config)

/-! ### Runs of cells -/

theorem sendBitsLsb_eq (v n : Nat) : sendBitsLsb c v n = (lsbBits v n).flatMap (sendBit c) := by
  induction n with
  | zero => rfl
  | succ n ih => simp [sendBitsLsb, ih, lsbBits, List.range_succ]

theorem msbBits_succ (v n : Nat) : msbBits v (n + 1) = v.testBit n :: msbBits v n := by
  simp only [msbBits, List.range_succ_eq_map, List.map_cons, List.map_map]
  congr 1
  refine List.map_congr_left fun k _ => ?_
  simp only [Function.comp]
  congr 1
  omega

theorem sendBitsMsb_eq (v n : Nat) : sendBitsMsb c v n = (msbBits v n).flatMap (sendBit c) := by
  induction n with
  | zero => rfl
  | succ n ih => simp [sendBitsMsb, ih, msbBits_succ]

theorem sendZeros_eq (n : Nat) : sendZeros c n = (List.replicate n false).flatMap (sendBit c) := by
  induction n with
  | zero => rfl
  | succ n ih => simp [sendZeros, ih, List.replicate_succ]

@[simp] theorem sampleCount_sendBit (b : Bool) : sampleCount (sendBit c b) = 0 := rfl

@[simp] theorem sampleCount_sends (bits : List Bool) : sampleCount (bits.flatMap (sendBit c)) = 0 := by
  induction bits with
  | nil => rfl
  | cons b bits ih => simp [ih]

@[simp] theorem sampleCount_recvBits (n : Nat) : sampleCount (recvBits c n) = n := by
  induction n with
  | zero => rfl
  | succ n ih =>
    have h1 : sampleCount (recvBit c) = 1 := rfl
    simp [recvBits, ih, h1, Nat.add_comm]

/-- The events of a run of outbound cells. -/
theorem events_sends (bits xs : List Bool) :
    events (bits.flatMap (sendBit c)) xs = bits.flatMap (outCell c) := by
  rw [events_no_sample _ (by simp)]
  induction bits with
  | nil => rfl
  | cons b bits ih =>
    rw [List.flatMap_cons, List.flatMap_cons, ← List.nil_append ([] : List Bool),
      events_append _ _ _ _ (by simp), ih]
    rfl

/-- The events of a run of inbound cells. -/
theorem events_recvBits (xs : List Bool) : events (recvBits c xs.length) xs = xs.flatMap (inCell c) := by
  induction xs with
  | nil => rfl
  | cons x xs ih =>
    have h := events_append (recvBit c) (recvBits c xs.length) [x] xs rfl
    simp only [List.length_cons, recvBits, List.flatMap_cons, ← ih]
    exact h

/-! ### What observers see of a run of cells -/

@[simp] theorem outBits_append (a b : List Event) : outBits (a ++ b) = outBits a ++ outBits b := by simp [outBits]
@[simp] theorem inBits_append (a b : List Event) : inBits (a ++ b) = inBits a ++ inBits b := by simp [inBits]
@[simp] theorem resetVerbs_append (a b : List Event) : resetVerbs (a ++ b) = resetVerbs a ++ resetVerbs b := by
  simp [resetVerbs]
@[simp] theorem pulses_append (a b : List Event) : pulses (a ++ b) = pulses a + pulses b := by simp [pulses]
@[simp] theorem waitTotal_append (a b : List Event) : waitTotal (a ++ b) = waitTotal a + waitTotal b := by
  simp [waitTotal]

@[simp] theorem outBits_outCells (bits : List Bool) : outBits (bits.flatMap (outCell c)) = bits := by
  induction bits with
  | nil => rfl
  | cons b bits ih => rw [List.flatMap_cons, outBits_append, ih]; rfl
@[simp] theorem outBits_inCells (bits : List Bool) : outBits (bits.flatMap (inCell c)) = [] := by
  induction bits with
  | nil => rfl
  | cons b bits ih => rw [List.flatMap_cons, outBits_append, ih]; rfl
@[simp] theorem inBits_outCells (bits : List Bool) : inBits (bits.flatMap (outCell c)) = [] := by
  induction bits with
  | nil => rfl
  | cons b bits ih => rw [List.flatMap_cons, inBits_append, ih]; rfl
@[simp] theorem inBits_inCells (bits : List Bool) : inBits (bits.flatMap (inCell c)) = bits := by
  induction bits with
  | nil => rfl
  | cons b bits ih => rw [List.flatMap_cons, inBits_append, ih]; rfl
@[simp] theorem resetVerbs_outCells (bits : List Bool) : resetVerbs (bits.flatMap (outCell c)) = [] := by
  induction bits with
  | nil => rfl
  | cons b bits ih => rw [List.flatMap_cons, resetVerbs_append, ih]; rfl
@[simp] theorem resetVerbs_inCells (bits : List Bool) : resetVerbs (bits.flatMap (inCell c)) = [] := by
  induction bits with
  | nil => rfl
  | cons b bits ih => rw [List.flatMap_cons, resetVerbs_append, ih]; rfl
@[simp] theorem dirModes_outCells (bits : List Bool) : (bits.flatMap (outCell c)).filterMap Event.dirMode = [] := by
  induction bits with
  | nil => rfl
  | cons b bits ih => rw [List.flatMap_cons, List.filterMap_append, ih]; rfl
@[simp] theorem dirModes_inCells (bits : List Bool) : (bits.flatMap (inCell c)).filterMap Event.dirMode = [] := by
  induction bits with
  | nil => rfl
  | cons b bits ih => rw [List.flatMap_cons, List.filterMap_append, ih]; rfl
@[simp] theorem pulses_outCells (bits : List Bool) : pulses (bits.flatMap (outCell c)) = bits.length := by
  induction bits with
  | nil => rfl
  | cons b bits ih =>
    have h1 : pulses (outCell c b) = 1 := by simp [pulses, outCell]
    rw [List.flatMap_cons, pulses_append, ih, h1, List.length_cons, Nat.add_comm]
@[simp] theorem pulses_inCells (bits : List Bool) : pulses (bits.flatMap (inCell c)) = bits.length := by
  induction bits with
  | nil => rfl
  | cons b bits ih =>
    have h1 : pulses (inCell c b) = 1 := by simp [pulses, inCell]
    rw [List.flatMap_cons, pulses_append, ih, h1, List.length_cons, Nat.add_comm]
@[simp] theorem waitTotal_outCells (bits : List Bool) :
    waitTotal (bits.flatMap (outCell c)) = 2 * c.p * bits.length := by
  induction bits with
  | nil => rfl
  | cons b bits ih =>
    have h1 : waitTotal (outCell c b) = 2 * c.p := by simp [waitTotal, outCell, Event.duration]; omega
    rw [List.flatMap_cons, waitTotal_append, ih, h1, List.length_cons, Nat.mul_succ, Nat.add_comm]
@[simp] theorem waitTotal_inCells (bits : List Bool) :
    waitTotal (bits.flatMap (inCell c)) = 2 * c.p * bits.length := by
  induction bits with
  | nil => rfl
  | cons b bits ih =>
    have h1 : waitTotal (inCell c b) = 2 * c.p := by simp [waitTotal, inCell, Event.duration]; omega
    rw [List.flatMap_cons, waitTotal_append, ih, h1, List.length_cons, Nat.mul_succ, Nat.add_comm]
@[simp] theorem length_outCells (bits : List Bool) : (bits.flatMap (outCell c)).length = 5 * bits.length := by
  induction bits with
  | nil => rfl
  | cons b bits ih =>
    rw [List.flatMap_cons, List.length_append, ih, List.length_cons, show (outCell c b).length = 5 from rfl]; omega
@[simp] theorem length_inCells (bits : List Bool) : (bits.flatMap (inCell c)).length = 5 * bits.length := by
  induction bits with
  | nil => rfl
  | cons b bits ih =>
    rw [List.flatMap_cons, List.length_append, ih, List.length_cons, show (inCell c b).length = 5 from rfl]; omega

/-- A run of outbound cells leaves the clock low, and leaves it alone if it is empty. -/
theorem clk_outCells (bits : List Bool) :
    ((bits.flatMap (outCell c)).filterMap Event.clkLevel).getLast? = if bits = [] then none else some false := by
  induction bits with
  | nil => rfl
  | cons b bits ih =>
    rw [List.flatMap_cons, List.filterMap_append, List.getLast?_append, ih]
    cases bits <;> rfl
theorem clk_inCells (bits : List Bool) :
    ((bits.flatMap (inCell c)).filterMap Event.clkLevel).getLast? = if bits = [] then none else some false := by
  induction bits with
  | nil => rfl
  | cons b bits ih =>
    rw [List.flatMap_cons, List.filterMap_append, List.getLast?_append, ih]
    cases bits <;> rfl

@[simp] theorem lsbBits_length (v n : Nat) : (lsbBits v n).length = n := by simp [lsbBits]
@[simp] theorem msbBits_length (v n : Nat) : (msbBits v n).length = n := by simp [msbBits]

/-! ### What the latches make of a run of cells -/

theorem latched_append (s : State) (a b : List Event) : latched s (a ++ b) = latched (latched s a) b := by
  induction a generalizing s with
  | nil => simp [latched, resetVerbs, outBits]
  | cons e a ih => rw [latched_cons, ← ih, List.cons_append, latched_cons]

/-- Outbound cells leave the last bit on `DOUT` and the clock low; the other latches are untouched. -/
theorem latched_outCells (s : State) (bits : List Bool) (h : bits ≠ []) :
    latched s (bits.flatMap (outCell c)) = { s with dout := (bits.getLast?).getD s.dout, clk := false } := by
  simp only [latched, resetVerbs_outCells, dirModes_outCells, outBits_outCells, clk_outCells, h]
  rfl

/-- Inbound cells leave the clock low; the other latches are untouched. -/
theorem latched_inCells (s : State) (bits : List Bool) (h : bits ≠ []) :
    latched s (bits.flatMap (inCell c)) = { s with clk := false } := by
  simp only [latched, resetVerbs_inCells, dirModes_inCells, outBits_inCells, clk_inCells, h]
  rfl

/-! ### The engine's bit counts (R5, D13) -/

@[simp] theorem engine_nFlush : Config.engine.nFlush = 5 := rfl
@[simp] theorem engine_nCtrl : Config.engine.nCtrl = 4 := rfl
@[simp] theorem engine_nOpcode : Config.engine.nOpcode = 24 := rfl
@[simp] theorem engine_nRegoutDelay : Config.engine.nRegoutDelay = 8 := rfl
@[simp] theorem engine_nRegoutData : Config.engine.nRegoutData = 16 := rfl

/-- Control code 1 of four bits, in time (R66). -/
theorem lsbBits_one_four : lsbBits 1 4 = [true, false, false, false] := by decide

/-! ### The frames and the commands -/

/-- The KEY frame's events (R62). -/
theorem events_keyCells (xs : List Bool) :
    events (keyCells c) xs = (msbBits c.key c.keyLen).flatMap (outCell c) := by
  rw [keyCells, sendBitsMsb_eq, events_sends]

/-- The FLUSH frame's events (R63). -/
theorem events_flushCells (xs : List Bool) :
    events (flushCells c) xs = (List.replicate c.nFlush false).flatMap (outCell c) := by
  rw [flushCells, sendZeros_eq, events_sends]

theorem sixCells_eq (opcode : Opcode) :
    sixCells c opcode = (List.replicate c.nCtrl false ++ lsbBits opcode.toNat c.nOpcode).flatMap (sendBit c) := by
  rw [sixCells, sendZeros_eq, sendBitsLsb_eq, ← List.flatMap_append]

/-- The SIX frame's events (R64). -/
theorem events_sixCells (opcode : Opcode) (xs : List Bool) :
    events (sixCells c opcode) xs =
      (List.replicate c.nCtrl false ++ lsbBits opcode.toNat c.nOpcode).flatMap (outCell c) := by
  rw [sixCells_eq, events_sends]

theorem regoutCells_eq :
    regoutCells c = ((lsbBits 1 c.nCtrl ++ List.replicate c.nRegoutDelay false).flatMap (sendBit c)) ++
      (switchData .sense ++ (recvBits c c.nRegoutData ++ switchData .drive)) := by
  rw [regoutCells, regoutControl, sendZeros_eq, sendBitsLsb_eq, ← List.flatMap_append]
  simp only [List.append_assoc]

/-- The REGOUT frame's events, its samples being `xs` (R65). -/
theorem events_regoutCells (xs : List Bool) (h : xs.length = c.nRegoutData) :
    events (regoutCells c) xs =
      (lsbBits 1 c.nCtrl ++ List.replicate c.nRegoutDelay false).flatMap (outCell c) ++ [.dir .sense] ++ xs.flatMap (inCell c) ++
        [.dir .drive] := by
  rw [regoutCells_eq, ← List.nil_append xs, events_append _ _ _ _ (by simp), events_sends]
  rw [← List.nil_append xs, events_append (switchData .sense) _ _ _ rfl]
  rw [← List.append_nil xs, events_append _ _ _ _ (by simp [h]), ← h, events_recvBits]
  simp [events, switchData]

/-- The REGOUT frame's events at the engine's bit counts: `1,0,0,0` and eight zeros, then sixteen inbound cells (R65). -/
theorem events_regoutCells_engine (xs : List Bool) (h : xs.length = 16) :
    events (regoutCells Config.engine) xs =
      ([true, false, false, false] ++ List.replicate 8 false).flatMap (outCell Config.engine) ++ [.dir .sense] ++
        xs.flatMap (inCell Config.engine) ++ [.dir .drive] := by
  rw [events_regoutCells _ _ h, engine_nCtrl, engine_nRegoutDelay, lsbBits_one_four]

@[simp] theorem sampleCount_keyCells : sampleCount (keyCells c) = 0 := by simp [keyCells, sendBitsMsb_eq]
@[simp] theorem sampleCount_flushCells : sampleCount (flushCells c) = 0 := by simp [flushCells, sendZeros_eq]
@[simp] theorem sampleCount_sixCells (opcode : Opcode) : sampleCount (sixCells c opcode) = 0 := by
  simp [sixCells_eq, -List.flatMap_append]
@[simp] theorem sampleCount_regoutCells : sampleCount (regoutCells c) = c.nRegoutData := by
  rw [regoutCells_eq, sampleCount_append, sampleCount_sends, sampleCount_append, sampleCount_append,
    sampleCount_recvBits]
  show 0 + (0 + (c.nRegoutData + 0)) = c.nRegoutData
  omega
@[simp] theorem sampleCount_driveReset (v : ResetDrive) : sampleCount (driveReset v) = 0 := rfl
@[simp] theorem sampleCount_delay (d : Nat) : sampleCount (delay d) = 0 := rfl
@[simp] theorem sampleCount_switchData (m : DataDir) : sampleCount (switchData m) = 0 := rfl
@[simp] theorem sampleCount_openScript : sampleCount (openScript c) = 0 := by
  simp [openScript, -List.append_assoc]
@[simp] theorem sampleCount_closeScript : sampleCount (closeScript c) = 0 := rfl

/-- OPEN's events (R110). -/
theorem events_openScript (xs : List Bool) :
    events (openScript c) xs =
      [.rst .low, .wait c.tRstSettle, .rst .high, .wait c.tRstSettle] ++
      (msbBits c.key c.keyLen).flatMap (outCell c) ++
      [.wait c.tKeyHold, .rst .released, .wait c.tEnterHold] ++
      (List.replicate c.nFlush false).flatMap (outCell c) := by
  rw [events_no_sample _ (by simp)]
  simp only [openScript, List.append_assoc]
  iterate 8 rw [events_append_no_sample _ _ _ (by simp)]
  simp [events_keyCells, events_flushCells, events, driveReset, delay]

/-- CLOSE's events (R113). -/
theorem events_closeScript (xs : List Bool) :
    events (closeScript c) xs = [.rst .low, .wait c.tExitLow, .rst .released] := by
  rw [events_no_sample _ rfl]; rfl

end Sys2Proof.Machine
end

