-- ==== Sys2Proof/Laws/Meaning.lean ====
section
/-! SUPPORT. What `exec`, `step` and `microStep` can do, said once: every meaning performs its instruction's operation. -/

namespace Sys2Proof.Machine

/-- Every instruction's meaning is to perform its operation, and none stops. -/
theorem exec_eq (i : Instr) (s : State) : exec i s = .next (s.perform (jobOf Config.engine i)) := by
  cases i <;> rfl

theorem exec_next {i : Instr} {s t : State} (h : exec i s = .next t) : t = s.perform (jobOf Config.engine i) := by
  rw [exec_eq] at h
  exact (Host.Outcome.next.inj h).symm

/-- An operation performed either is refused, and then only its reply is new, or runs to its end. -/
theorem perform_cases (s : State) (j : Job) :
    (∃ r, s.refusal j = some r ∧ s.perform j = s.refuse r) ∨
    (s.refusal j = none ∧ s.perform j = (s.accept j).finish j) := by
  unfold State.perform
  cases h : s.refusal j with
  | some r => exact .inl ⟨r, rfl, rfl⟩
  | none => exact .inr ⟨rfl, rfl⟩

/-- The ways one step answers a next state: a command in flight runs to its end, the host's next request is performed or
refused as it is read, or nothing is there to do. -/
theorem step_next {s t : State} (h : step s = .next t) :
    (∃ j, s.inFlight = some j ∧ t = s.finish j) ∨
    (∃ r rest i, s.inFlight = none ∧ s.host = r :: rest ∧ r.read = .run i ∧
      t = State.perform { s with host := rest } (jobOf Config.engine i)) ∨
    (∃ r rest reason, s.inFlight = none ∧ s.host = r :: rest ∧ r.read = .refuse reason ∧
      t = State.refuse { s with host := rest } reason) ∨
    (s.inFlight = none ∧ s.host = [] ∧ t = s) := by
  unfold step fetch at h
  cases hf : s.inFlight with
  | some j =>
    simp only [hf] at h
    exact .inl ⟨j, rfl, (Host.Outcome.next.inj h).symm⟩
  | none =>
    simp only [hf] at h
    cases hh : s.host with
    | nil =>
      simp only [hh] at h
      exact .inr (.inr (.inr ⟨rfl, rfl, (Host.Outcome.next.inj h).symm⟩))
    | cons r rest =>
      simp only [hh] at h
      cases hd : r.read with
      | run i =>
        simp only [hd] at h
        exact .inr (.inl ⟨r, rest, i, rfl, rfl, hd, exec_next h⟩)
      | refuse reason =>
        simp only [hd] at h
        exact .inr (.inr (.inl ⟨r, rest, reason, rfl, rfl, hd, (Host.Outcome.next.inj h).symm⟩))
      | stop _ => simp [hd] at h

/-- The ways one small step answers a next state: one action of the command in flight, its return, the admission of the
host's next request, its refusal as it is read, or nothing. -/
theorem microStep_next {s t : State} (h : microStep s = .next t) :
    (∃ j a, s.inFlight = some j ∧ j.script[s.useq]? = some a ∧ t = s.act a) ∨
    (∃ j, s.inFlight = some j ∧ j.script.length ≤ s.useq ∧ t = s.complete j) ∨
    (∃ r rest i, s.inFlight = none ∧ s.host = r :: rest ∧ r.read = .run i ∧
      t = State.takeUp { s with host := rest } (jobOf Config.engine i)) ∨
    (∃ r rest reason, s.inFlight = none ∧ s.host = r :: rest ∧ r.read = .refuse reason ∧
      t = State.refuse { s with host := rest } reason) ∨
    (s.inFlight = none ∧ s.host = [] ∧ t = s) := by
  unfold microStep fetch at h
  cases hf : s.inFlight with
  | some j =>
    simp only [hf] at h
    cases ha : j.script[s.useq]? with
    | some a =>
      simp only [ha] at h
      exact .inl ⟨j, a, rfl, ha, (Host.Outcome.next.inj h).symm⟩
    | none =>
      simp only [ha] at h
      exact .inr (.inl ⟨j, rfl, List.getElem?_eq_none_iff.mp ha, (Host.Outcome.next.inj h).symm⟩)
  | none =>
    simp only [hf] at h
    cases hh : s.host with
    | nil =>
      simp only [hh] at h
      exact .inr (.inr (.inr (.inr ⟨rfl, rfl, (Host.Outcome.next.inj h).symm⟩)))
    | cons r rest =>
      simp only [hh] at h
      cases hd : r.read with
      | run i =>
        simp only [hd] at h
        exact .inr (.inr (.inl ⟨r, rest, i, rfl, rfl, hd, (Host.Outcome.next.inj h).symm⟩))
      | refuse reason =>
        simp only [hd] at h
        exact .inr (.inr (.inr (.inl ⟨r, rest, reason, rfl, rfl, hd, (Host.Outcome.next.inj h).symm⟩)))
      | stop _ => simp [hd] at h

/-! ### Requests -/

/-- A request read as an instruction is that instruction, or a word that decodes to it, and a host's to make. -/
theorem read_run {r : Request} {i : Instr} (h : r.read = .run i) :
    i.isRequest = true ∧ (r = .op i ∨ ∃ w, r = .word w ∧ decode w = .ok i) := by
  have port {k : Instr} (hk : atThePort k = .run i) : k = i ∧ i.isRequest = true := by
    unfold atThePort at hk
    split at hk
    · cases hk
      exact ⟨rfl, ‹_›⟩
    · cases hk
  cases r with
  | op k =>
    obtain ⟨rfl, hr⟩ := port h
    exact ⟨hr, .inl rfl⟩
  | word w =>
    unfold Request.read at h
    cases hd : decode w with
    | ok k =>
      simp only [hd] at h
      obtain ⟨rfl, hr⟩ := port h
      exact ⟨hr, .inr ⟨w, rfl, hd⟩⟩
    | error e =>
      simp only [hd] at h
      split at h <;> cases h

/-- A request is refused as it is read only for an operand out of range (U4). -/
theorem read_refuse {r : Request} {reason : RefusalReason} (h : r.read = .refuse reason) :
    reason = .operandOutOfRange ∧ ∃ w, r = .word w ∧ decode w = .error .reservedTableMode := by
  have port (k : Instr) : atThePort k ≠ .refuse reason := by
    unfold atThePort
    split <;> exact Reading.noConfusion
  cases r with
  | op k => exact (port k h).elim
  | word w =>
    unfold Request.read at h
    cases hd : decode w with
    | ok k =>
      simp only [hd] at h
      exact (port k h).elim
    | error e =>
      simp only [hd] at h
      split at h
      · cases h
        exact ⟨rfl, w, rfl, by simp_all⟩
      · cases h

/-- The instructions a host can request: the four commands and the encoder's calls, which touch no line (R60, R130). -/
theorem isRequest_cases {i : Instr} (h : i.isRequest = true) :
    i = .openCmd ∨ (∃ opcode, i = .six opcode) ∨ i = .regout ∨ i = .closeCmd ∨
    ∃ typed formula, ∀ c, jobOf c i = encoderJob typed formula := by
  cases i with
  | openCmd => exact .inl rfl
  | six opcode => exact .inr (.inl ⟨opcode, rfl⟩)
  | regout => exact .inr (.inr (.inl rfl))
  | closeCmd => exact .inr (.inr (.inr (.inl rfl)))
  | sixFrame _ | regoutFrame | flushFrame | keyFrame | sendBit _ | recvBit => cases h
  | _ => exact .inr (.inr (.inr (.inr ⟨_, _, fun _ => rfl⟩)))

/-- What an operation is typed by is the instruction's well-formedness (R131). -/
theorem jobOf_typed (c : Config) (i : Instr) : (jobOf c i).typed = i.wf := by
  cases i <;> rfl

/-! ### One action -/

@[simp] theorem act_session (s : State) (a : Act) : (s.act a).session = s.session := by cases a <;> simp [State.act]
@[simp] theorem act_replies (s : State) (a : Act) : (s.act a).replies = s.replies := by cases a <;> simp [State.act]
@[simp] theorem act_inFlight (s : State) (a : Act) : (s.act a).inFlight = s.inFlight := by cases a <;> simp [State.act]
@[simp] theorem act_host (s : State) (a : Act) : (s.act a).host = s.host := by cases a <;> simp [State.act]
@[simp] theorem act_useq (s : State) (a : Act) : (s.act a).useq = s.useq + 1 := by cases a <;> simp [State.act]

/-! ### A run of actions keeps what no event touches -/

@[simp] theorem acts_session (s : State) (as : List Act) : (s.acts as).session = s.session := by
  rw [acts_eq]; rfl
@[simp] theorem acts_replies (s : State) (as : List Act) : (s.acts as).replies = s.replies := by
  rw [acts_eq]; rfl
@[simp] theorem acts_host (s : State) (as : List Act) : (s.acts as).host = s.host := by
  rw [acts_eq]; rfl
@[simp] theorem acts_inFlight (s : State) (as : List Act) : (s.acts as).inFlight = s.inFlight := by
  rw [acts_eq]; rfl

end Sys2Proof.Machine
end

