-- ==== Sys2Proof/Laws/Lines.lean ====
section
/-! SUPPORT. The line discipline over sequences of events and runs of cells, and a run of small steps over a command in
flight. -/

namespace Sys2Proof.Machine

theorem lineRun_append (l : DataDir × Bool) (a b : List Event) :
    lineRun l (a ++ b) = (lineRun l a).bind fun l' => lineRun l' b := by
  induction a generalizing l with
  | nil => rfl
  | cons e a ih =>
    simp only [List.cons_append, lineRun]
    cases lineStep l e <;> simp [ih]

/-- Outbound cells keep the discipline in drive mode. -/
theorem lineRun_outCells (c : Config) (bits : List Bool) :
    lineRun (.drive, false) (bits.flatMap (outCell c)) = some (.drive, false) := by
  induction bits with
  | nil => rfl
  | cons b bits ih => rw [List.flatMap_cons, lineRun_append]; exact ih

/-- Inbound cells keep the discipline in sense mode. -/
theorem lineRun_inCells (c : Config) (bits : List Bool) :
    lineRun (.sense, false) (bits.flatMap (inCell c)) = some (.sense, false) := by
  induction bits with
  | nil => rfl
  | cons b bits ih => rw [List.flatMap_cons, lineRun_append]; exact ih

/-- Small steps take a command in flight to its end: one for each event left, one for its return. -/
theorem microRun_inFlight (j : Job) (n : Nat) (s : State) (h : s.inFlight = some j)
    (hn : n = (j.script.drop s.useq).length) : microRun (n + 1) s = .next (s.finish j) := by
  induction n generalizing s with
  | zero =>
    have h0 : j.script.drop s.useq = [] := List.eq_nil_of_length_eq_zero hn.symm
    have hg : j.script[s.useq]? = none := by
      rw [List.getElem?_eq_none_iff]
      simpa using h0
    simp [microRun, microStep, h, hg, State.finish, h0]
  | succ n ih =>
    have hl : s.useq < j.script.length := by
      simp at hn
      omega
    have hg : j.script[s.useq]? = some j.script[s.useq] := List.getElem?_eq_getElem hl
    have hd : j.script.drop s.useq = j.script[s.useq] :: j.script.drop (s.useq + 1) := List.drop_eq_getElem_cons hl
    rw [microRun]
    simp only [microStep, h, hg]
    rw [ih _ (by simp [h]) (by simp at hn ⊢; omega)]
    simp only [State.finish, act_useq, hd, acts_cons]

end Sys2Proof.Machine
end

