-- ==== Sys2Proof/Laws/PerInstr.lean ====
section
/-! SUPPORT. Facts about every instruction as syntax, one lemma per constructor: dropping the address bits its encoding
drops keeps it well formed and keeps its word (R69), and its word fits its width (R75). -/

namespace Sys2Proof.Laws.EncodingShape

/-- The canonical form is well formed, has the same word, and the word fits. -/
def Statement (i : Instr) : Prop :=
  i.wf = true → i.canonical.wf = true ∧ encode i.canonical = encode i ∧ (encode i).bits < 2 ^ (encode i).width

theorem keyFrameNumber_lt (key n : Nat) : keyFrameNumber key n < 2 ^ n := by
  induction n with
  | zero => simp [keyFrameNumber]
  | succ n ih =>
    have : (key.testBit n).toNat < 2 := by cases key.testBit n <;> simp
    rw [keyFrameNumber, Nat.pow_succ]
    omega

theorem openCmd : Statement .openCmd := by simp [Statement, Instr.wf, Instr.canonical, encode]
theorem six (opcode : Opcode) : Statement (.six opcode) := by
  have := opcode.isLt
  simp [Statement, Instr.wf, Instr.canonical, encode]; omega
theorem regout : Statement .regout := by simp [Statement, Instr.wf, Instr.canonical, encode]
theorem closeCmd : Statement .closeCmd := by simp [Statement, Instr.wf, Instr.canonical, encode]
theorem sixFrame (opcode : Opcode) : Statement (.sixFrame opcode) := by
  have := opcode.isLt
  simp [Statement, Instr.wf, Instr.canonical, encode, sixFrameNumber]; omega
theorem regoutFrame : Statement .regoutFrame := by simp [Statement, Instr.wf, Instr.canonical, encode]
theorem flushFrame : Statement .flushFrame := by simp [Statement, Instr.wf, Instr.canonical, encode]
theorem keyFrame : Statement .keyFrame := by
  simpa [Statement, Instr.wf, Instr.canonical, encode] using keyFrameNumber_lt _ _
theorem sendBit (b : Bool) : Statement (.sendBit b) := by
  cases b <;> simp [Statement, Instr.wf, Instr.canonical, encode]
theorem recvBit : Statement .recvBit := by simp [Statement, Instr.wf, Instr.canonical, encode]
theorem nop : Statement .nop := by simp [Statement, Instr.wf, Instr.canonical, encode, opcodeWord]
theorem loadImmediate (data reg : Nat) : Statement (.loadImmediate data reg) := by
  simp [Statement, Instr.wf, Instr.canonical, encode, opcodeWord, isHalf, isReg, litFields]; omega
theorem store (reg addr : Nat) : Statement (.store reg addr) := by
  simp [Statement, Instr.wf, Instr.canonical, encode, opcodeWord, isHalf, isReg, fileFields, field]; omega
theorem retrieve (addr reg : Nat) : Statement (.retrieve addr reg) := by
  simp [Statement, Instr.wf, Instr.canonical, encode, opcodeWord, isHalf, isReg, fileFields, field]; omega
theorem jump (addr : Nat) : Statement (.jump addr) := by
  simp [Statement, Instr.wf, Instr.canonical, encode, opcodeWord, isHalf, gotoFields]; omega
theorem bitSet (addr bit : Nat) : Statement (.bitSet addr bit) := by
  simp [Statement, Instr.wf, Instr.canonical, encode, opcodeWord, isHalf, isBitNumber, bsetFields, field]
  omega

/-- The word of a table operation fits, whatever its selector bits. -/
theorem tblFields_lt {w h b src srcMode dst dstMode : Nat} (hw : w < 2) (hh : h < 2) (hb : b < 2)
    (hc : isTableCall src srcMode dst dstMode = true) : tblFields w h b src srcMode dst dstMode < 2 ^ 24 := by
  simp [isTableCall, isReg, isMode] at hc
  simp only [tblFields]
  omega

theorem tableReadLow (src srcMode dst dstMode : Nat) : Statement (.tableReadLow src srcMode dst dstMode) :=
  fun hc => ⟨hc, rfl, tblFields_lt (by decide) (by decide) (by decide) hc⟩
theorem tableReadHigh (src srcMode dst dstMode : Nat) : Statement (.tableReadHigh src srcMode dst dstMode) :=
  fun hc => ⟨hc, rfl, tblFields_lt (by decide) (by decide) (by decide) hc⟩
theorem tableWriteLow (src srcMode dst dstMode : Nat) : Statement (.tableWriteLow src srcMode dst dstMode) :=
  fun hc => ⟨hc, rfl, tblFields_lt (by decide) (by decide) (by decide) hc⟩
theorem tableWriteHigh (src srcMode dst dstMode : Nat) : Statement (.tableWriteHigh src srcMode dst dstMode) :=
  fun hc => ⟨hc, rfl, tblFields_lt (by decide) (by decide) (by decide) hc⟩
theorem tableWriteHighByte (src srcMode dst dstMode : Nat) : Statement (.tableWriteHighByte src srcMode dst dstMode) :=
  fun hc => ⟨hc, rfl, tblFields_lt (by decide) (by decide) (by decide) hc⟩

end Sys2Proof.Laws.EncodingShape
end

