-- ==== Sys2Proof/Laws/World.lean ====
section
/-! SUPPORT. Host programs over their replies, and one step of the engine in its surroundings, said once. -/

namespace Sys2Proof.Machine

namespace HostProgram

/-! ### A sequence of commands -/

/-- While not every command of a sequence is answered, the next one is asked. -/
theorem ask_next (is : List Instr) (next : HostProgram) (replies : List Reply) (h : replies.length < is.length) :
    ask is next replies = some (.op is[replies.length]) := by
  simp [ask, h]

/-- When every command is answered, the rest of the program is told the replies after them. -/
theorem ask_done (is : List Instr) (next : HostProgram) (a b : List Reply) (h : a.length = is.length) :
    ask is next (a ++ b) = next b := by
  simp [ask, ← h]

/-! ### A poll -/

variable {round : List Instr} (ends : Half → Bool) (next : HostProgram)

/-- Rounds answered are among the replies, so more fuel changes nothing. -/
theorem pollFrom_fuel (hr : round ≠ []) (fuel : Nat) (replies : List Reply) (h : replies.length ≤ fuel) :
    pollFrom round ends next fuel replies = pollFrom round ends next replies.length replies := by
  have hpos : 0 < round.length := List.length_pos_of_ne_nil hr
  induction fuel using Nat.strong_induction_on generalizing replies with
  | _ fuel ih =>
    cases fuel with
    | zero => rw [Nat.le_zero.mp h]
    | succ fuel =>
      cases hl : replies.length with
      | zero => simp [pollFrom, hl, hpos]
      | succ m =>
        have hd : (replies.drop round.length).length ≤ m := by
          rw [List.length_drop]
          omega
        simp only [pollFrom]
        rw [ih fuel (by omega) _ (by omega), ih m (by omega) _ hd]

/-- Within a round the next command of the round is asked. -/
theorem poll_next (replies : List Reply) (h : replies.length < round.length) :
    poll round ends next replies = some (.op round[replies.length]) := by
  have hg : round[replies.length]? = some round[replies.length] := List.getElem?_eq_getElem h
  have all (fuel : Nat) : pollFrom round ends next fuel replies = some (.op round[replies.length]) := by
    cases fuel <;> simp [pollFrom, hg]
  exact all replies.length

/-- A whole round answered with a value either ends the poll or is followed by the next round. -/
theorem poll_round (a b : List Reply) (v : Half) (hr : round ≠ []) (ha : a.length = round.length)
    (hv : a.getLast? = some (.value v)) :
    poll round ends next (a ++ b) = if ends v then next b else poll round ends next b := by
  have hpos : 0 < round.length := List.length_pos_of_ne_nil hr
  obtain ⟨n, hn⟩ : ∃ n, (a ++ b).length = n + 1 := ⟨(a ++ b).length - 1, by rw [List.length_append]; omega⟩
  have hg : round[(a ++ b).length]? = none := by
    rw [List.getElem?_eq_none_iff, List.length_append]
    omega
  unfold poll
  rw [hn, pollFrom, hg]
  simp only [← ha, List.take_left', List.drop_left', hv]
  rw [pollFrom_fuel ends next hr n b (by rw [List.length_append] at hn; omega)]

end HostProgram

/-! ### SIX with an encoder call -/

/-- The request of a well-typed call is the SIX of its opcode, that of an ill-typed one the call itself. -/
theorem sixOf_eq {call : Instr} {typed : Bool} {formula : Nat}
    (h : jobOf Config.engine call = encoderJob typed formula) :
    sixOf call = if call.wf then .six (toOpcode formula) else call := by
  have hw : call.wf = typed := by rw [← jobOf_typed Config.engine, h]; rfl
  cases typed <;> simp [sixOf, h, hw, encoderJob]

/-- What the engine answers to it while `Active`: nothing, or the refusal of the ill-typed operand (R131, R191). -/
theorem perform_sixOf {call : Instr} {typed : Bool} {formula : Nat}
    (h : jobOf Config.engine call = encoderJob typed formula) (s : State) (ha : s.session = .active) :
    let t := s.perform (jobOf Config.engine (sixOf call))
    t.replies = s.replies ++ [if call.wf then .done else .refused .operandOutOfRange] ∧
    t.session = s.session ∧ t.host = s.host ∧ t.draws = s.draws := by
  have hw : call.wf = typed := by rw [← jobOf_typed Config.engine, h]; rfl
  rw [sixOf_eq h, hw]
  cases typed
  · simp [h, encoderJob, State.perform, State.refusal, State.refuse]
  · rw [if_pos rfl, perform_admitted _ _ (by simp [jobOf, sixJob, State.refusal, ha])]
    simp [jobOf, sixJob, ha]

/-! ### One step in the surroundings -/

/-- At a free port a host with a further request has it performed. -/
theorem world_step_request (w : World) (s : State) (r : Request) (i : Instr) (hf : s.inFlight = none) (hh : s.host = [])
    (hr : w.host s.replies = some r) (hi : r.read = .run i) :
    w.step s = .next (State.perform { w.shown s with host := [] } (jobOf Config.engine i)) := by
  simp only [World.step, hf, hh, and_self, if_true, hr]
  simp [step, World.shown, hf, fetch, hi, exec_eq]

/-- Runs compose. -/
theorem world_run_add (w : World) (m n : Nat) (s t : State) (h : w.run m s = .next t) : w.run (m + n) s = w.run n t := by
  induction m generalizing s with
  | zero =>
    cases h
    rw [Nat.zero_add]
  | succ m ih =>
    rw [World.run] at h
    rw [Nat.succ_add, World.run]
    cases hs : w.step s with
    | next u =>
      rw [hs] at h
      exact ih u h
    | fault f => cases f
    | refused r =>
      rw [hs] at h
      cases h

/-- The bits the target shows are the next sixteen of its stream. -/
theorem shown_samples (w : World) (s : State) :
    (w.shown s).samples 16 = (List.range 16).map fun i => w.target (s.draws + i) := by
  rw [samples_eq]
  refine List.map_congr_left fun i hi => ?_
  have : i < 16 := List.mem_range.mp hi
  simp [World.shown, this]

end Sys2Proof.Machine
end

