-- ==== Sys2Proof/Tests/Slice0.lean ====
section
/-! SUPPORT. The model's own tests. Expected results are the spec's: the vectors S1, S2 and V10 to V83 and the programs P1 to
P5 of 95_test_vectors.md, or words written out from the formats of 30_encoding.md. -/

namespace Sys2Proof.Tests

open Sys2Proof.Machine Sys2Proof.Claims

/-! ### Helpers -/

/-- The illustrative configuration of the programs P1 to P5, with `P = 1`. -/
def cfg : Config := { key := 0xA5, keyLen := 8, p := 1 }

/-- The configuration of vector V20. -/
def cfg20 : Config := { key := 0b101, keyLen := 3, p := 1 }

/-- Power-on with both unspecified latches at some level. -/
def off : State := State.powerOn true .high

/-- A state inside a session. -/
def on : State := { off with session := .active, rst := .released, dout := false }

/-- Sixteen bits as the target shows them, first one first. -/
def target (bits : List Nat) : State := { on with targetBits := bits.map (· == 1) }

/-- What an operation leaves, under the configuration `c`. -/
def after (c : Config) (i : Instr) (s : State) : State := s.perform (jobOf c i)

/-- What the last request returned. -/
def lastReply (s : State) : Option Reply := s.replies.getLast?

/-- The events of an outbound cell with `P = 1`, as rule R98 lists them. -/
def cell (b : Bool) : List Event := [.dout b, .wait 1, .clk true, .clk false, .wait 1]

/-- The instruction of a decoded word, if it is one. -/
def reads (w : PortWord) (i : Instr) : Bool := (decode w).toOption == some i

/-! ### Well-formedness: an ill-formed term for each check (R131) -/

theorem test_wf_data : (Instr.loadImmediate 0x10000 0).wf = false ∧ (Instr.loadImmediate 0xFFFF 15).wf = true := by decide
theorem test_wf_reg : (Instr.store 16 0).wf = false ∧ (Instr.retrieve 0 16).wf = false := by decide
theorem test_wf_addr : (Instr.jump 0x10000).wf = false ∧ (Instr.jump 0xFFFF).wf = true := by decide
theorem test_wf_bit : (Instr.bitSet 0 16).wf = false ∧ (Instr.bitSet 0xFFFF 15).wf = true := by decide
theorem test_wf_mode : (Instr.tableReadLow 0 6 0 0).wf = false ∧ (Instr.tableWriteHighByte 0 0 0 6).wf = false := by decide
theorem test_wf_table_reg : (Instr.tableWriteLow 16 0 0 0).wf = false ∧ (Instr.tableReadHigh 0 0 16 0).wf = false := by
  decide
theorem test_modes : [AddrMode.direct, .indirect, .indirectPostDecrement, .indirectPostIncrement, .indirectPreDecrement,
    .indirectPreIncrement].map AddrMode.code = [0, 1, 2, 3, 4, 5] := by decide

/-! ### Decoding: words written out from the spec's encodings -/

-- R79, with `cmd` in bits 1:0 and `op` in bits 25:2 (log entry 1)
theorem test_decode_open : reads ⟨.command, 26, 0b00⟩ .openCmd = true := by decide
theorem test_decode_six : reads ⟨.command, 26, 0b000001000000001000000000_01⟩ (.six 0x040200#24) = true := by decide
theorem test_decode_regout : reads ⟨.command, 26, 0b10⟩ .regout = true := by decide
theorem test_decode_close : reads ⟨.command, 26, 0b111_11⟩ .closeCmd = true := by decide
-- R64: frame number of P2's JUMP; R65: value 0x800D inbound
theorem test_decode_six_frame : reads ⟨.frame28, 28, 0x0402000⟩ (.sixFrame 0x040200#24) = true := by decide
theorem test_decode_regout_frame : reads ⟨.frame28, 28, 0b1000000000001101_00000000_0001⟩ .regoutFrame = true := by decide
theorem test_decode_flush_frame : reads ⟨.frame5, 5, 0b00000⟩ .flushFrame = true := by decide
theorem test_decode_send_bit : reads ⟨.cellOut, 1, 1⟩ (.sendBit true) = true ∧ reads ⟨.cellOut, 1, 0⟩ (.sendBit false) = true := by
  decide
theorem test_decode_recv_bit : reads ⟨.cellIn, 1, 1⟩ .recvBit = true := by decide
-- R62: `KEY = 0b110`, `KEY_LEN = 3` goes out 1, 1, 0, so frame bits 0 and 1 are ones
theorem test_key_frame_number : keyFrameNumber 0b110 3 = 0b011 ∧ keyFrameNumber 0b1110 3 = 0b011 := by decide
-- R67, the patterns of opcode_table.json field by field
theorem test_decode_nop : reads ⟨.opcode, 24, 0⟩ .nop = true := by decide
theorem test_decode_load_immediate : reads ⟨.opcode, 24, 0b0010_1000000000000000_0111⟩ (.loadImmediate 0x8000 7) = true := by
  decide
theorem test_decode_store : reads ⟨.opcode, 24, 0b10001_000001111000010_0001⟩ (.store 1 0x0784) = true := by decide
theorem test_decode_retrieve : reads ⟨.opcode, 24, 0b10000_000001110110000_0010⟩ (.retrieve 0x0760 2) = true := by decide
theorem test_decode_jump : reads ⟨.opcode, 24, 0b00000100_0001001000110100⟩ (.jump 0x1234) = true := by decide
theorem test_decode_bit_set : reads ⟨.opcode, 24, 0b10101000_111_001110110000_0⟩ (.bitSet 0x0760 14) = true := by decide
theorem test_decode_table_read_low :
    reads ⟨.opcode, 24, 0b1011101_000_001_0111_011_0110⟩ (.tableReadLow 6 3 7 1) = true := by decide
theorem test_decode_table_read_high :
    reads ⟨.opcode, 24, 0b1011101_010_001_0111_001_0110⟩ (.tableReadHigh 6 1 7 1) = true := by decide
theorem test_decode_table_write_low :
    reads ⟨.opcode, 24, 0b1011101_100_101_1111_101_1111⟩ (.tableWriteLow 15 5 15 5) = true := by decide
theorem test_decode_table_write_high :
    reads ⟨.opcode, 24, 0b1011101_110_011_0111_011_0110⟩ (.tableWriteHigh 6 3 7 3) = true := by decide
theorem test_decode_table_write_high_byte :
    reads ⟨.opcode, 24, 0b1011101_111_100_0000_010_0000⟩ (.tableWriteHighByte 0 2 0 4) = true := by decide
theorem test_decode_rejects :
    decode ⟨.frame28, 28, 2⟩ = .error .reservedControlCode ∧ decode ⟨.opcode, 24, 0xBA4000⟩ = .error .reservedTableSelector ∧
    decode ⟨.opcode, 24, 0xBA0060⟩ = .error .reservedTableMode ∧ decode ⟨.opcode, 24, 1⟩ = .error .noOpcodeFormat ∧
    decode ⟨.opcode, 23, 0⟩ = .error .wrongWidth ∧ decode ⟨.opcode, 24, 2 ^ 24⟩ = .error .bitsAboveWidth := by decide
theorem test_table_words :
    decodeTableWord 8 3 = some .closeCmd ∧ decodeTableWord 24 0xBBC000 = some (.tableWriteHighByte 0 0 0 0) ∧
    decodeTableWord 32 0 = some (.sixFrame 0) ∧ decodeTableWord 16 1 = some .regoutFrame ∧
    decodeTableWord 24 0x100000 = none := by decide

/-! ### Cells (V10 to V17) -/

theorem test_send_bit_v10 : (after cfg (.sendBit true) { off with dout := false }).trace =
    [.dout true, .wait 1, .clk true, .clk false, .wait 1] ∧ (after cfg (.sendBit true) { off with dout := false }).dout = true := by
  decide
theorem test_recv_bit_v12 : (after cfg .recvBit { off with dir := .sense, targetBits := [true] }).trace =
    [.din true, .wait 1, .clk true, .clk false, .wait 1] ∧
    lastReply (after cfg .recvBit { off with targetBits := [true] }) = some (.bit 1) := by decide +kernel
theorem test_send_bits_v13_v14 :
    outBits (events (sendBitsMsb cfg 0b110 3) []) = [true, true, false] ∧
    outBits (events (sendBitsLsb cfg 0b110 3) []) = [false, true, true] ∧
    outBits (events (sendBitsLsb cfg 0x1F 4) []) = [true, true, true, true] := by decide +kernel
theorem test_recv_bits_v16 : assemble [true, false, false, true] = 9 := by decide +kernel

/-! ### Commands (V20 to V27) -/

theorem test_open_v20 : (after cfg20 .openCmd off).trace =
    ([[.rst .low, .wait 100, .rst .high, .wait 100], cell true, cell false, cell true,
      [.wait 20000, .rst .released, .wait 50000], cell false, cell false, cell false, cell false, cell false] :
      List (List Event)).flatten := by decide +kernel
theorem test_open_v20_latches : (after cfg20 .openCmd off).session = .active ∧ (after cfg20 .openCmd off).rst = .released ∧
    (after cfg20 .openCmd off).dout = false ∧ (after cfg20 .openCmd off).clk = false := by decide +kernel
theorem test_six_v22 : outBits (after cfg (.six 0x040200#24) on).trace =
    ([0,0,0,0] ++ [0,0,0,0,0,0,0,0,0,1,0,0] ++ [0,0,0,0,0,0,1,0,0,0,0,0]).map (· == 1) ∧
    (after cfg (.six 0x040200#24) on).trace.length = 140 := by decide +kernel
theorem test_six_v23 : (after cfg (.six 0xFFFFFF#24) on).dout = true ∧ (after cfg (.six 0#24) on).dout = false := by decide +kernel
theorem test_regout_v24 :
    lastReply (after cfg .regout (target [1,0,1,1,0,0,0,0,0,0,0,0,0,0,0,1])) = some (.value 0x800D#16) ∧
    (after cfg .regout (target [1,0,1,1,0,0,0,0,0,0,0,0,0,0,0,1])).trace.drop 135 =
      [.wait 1, .din true, .wait 1, .clk true, .clk false, .wait 1, .dir .drive] := by decide +kernel
theorem test_regout_v24_middle :
    ((after cfg .regout (target [1,0,1,1,0,0,0,0,0,0,0,0,0,0,0,1])).trace.drop 59).take 3 =
      [.wait 1, .dir .sense, .din true] := by decide +kernel
theorem test_close_v26 : (after cfg .closeCmd on).trace = [.rst .low, .wait 5000, .rst .released] ∧
    (after cfg .closeCmd on).session = .closed := by decide +kernel
theorem test_refused_v27 :
    after cfg (.six 0#24) off = { off with replies := [.refused .wrongSessionState] } ∧
    after cfg .openCmd on = { on with replies := [.refused .wrongSessionState] } := by decide +kernel

/-! ### Frames -/

theorem test_key_frame : outBits (after cfg20 .keyFrame off).trace = [true, false, true] := by decide +kernel
theorem test_flush_frame : outBits (after cfg .flushFrame off).trace = List.replicate 5 false := by decide +kernel
theorem test_six_frame_p2 : outBits (after cfg (.sixFrame 0x212340#24) on).trace =
    ([0,0,0,0] ++ [0,0,0,0,0,0,1,0,1,1,0,0] ++ [0,1,0,0,1,0,0,0,0,1,0,0]).map (· == 1) := by decide +kernel
theorem test_regout_frame_v25 :
    lastReply (after cfg .regoutFrame (target [0,0,1,0,1,1,0,0,0,1,0,0,1,0,0,0])) = some (.value 0x1234#16) := by decide +kernel

/-! ### Encoder (V30 to V69) -/

theorem test_nop_v30 : lastReply (after cfg .nop off) = some (.opcode 0x000000#24) := by decide +kernel
theorem test_load_immediate_v31_v34 : lastReply (after cfg (.loadImmediate 5 0) off) = some (.opcode 0x200050#24) ∧
    lastReply (after cfg (.loadImmediate 0x8000 7) on) = some (.opcode 0x280007#24) := by decide +kernel
theorem test_store_v36_v39 : lastReply (after cfg (.store 0 0x0033) off) = some (.opcode 0x880190#24) ∧
    lastReply (after cfg (.store 1 0x0784) off) = some (.opcode 0x883C21#24) := by decide +kernel
theorem test_retrieve_v40_v41 : lastReply (after cfg (.retrieve 0x0760 2) off) = some (.opcode 0x803B02#24) ∧
    lastReply (after cfg (.retrieve 0xFFFE 15) off) = some (.opcode 0x87FFFF#24) := by decide +kernel
theorem test_jump_v46_v47 : lastReply (after cfg (.jump 0xFFFF) off) = some (.opcode 0x04FFFF#24) ∧
    lastReply (after cfg (.jump 0x0201) off) = some (.opcode 0x040201#24) := by decide +kernel
theorem test_bit_set_v48_v51_v54 : lastReply (after cfg (.bitSet 0x2760 15) off) = some (.opcode 0xA8E761#24) ∧
    lastReply (after cfg (.bitSet 0xFFFF 0) off) = some (.opcode 0xA81FFE#24) := by decide +kernel
theorem test_table_read_low_v55_v57 : lastReply (after cfg (.tableReadLow 6 3 7 1) off) = some (.opcode 0xBA0BB6#24) ∧
    lastReply (after cfg (.tableReadLow 15 5 15 5) off) = some (.opcode 0xBA2FDF#24) := by decide +kernel
theorem test_table_read_high_v58 : lastReply (after cfg (.tableReadHigh 6 1 7 1) off) = some (.opcode 0xBA8B96#24) := by decide +kernel
theorem test_table_write_low_v61 : lastReply (after cfg (.tableWriteLow 6 3 7 3) off) = some (.opcode 0xBB1BB6#24) := by decide +kernel
theorem test_table_write_high_v64 : lastReply (after cfg (.tableWriteHigh 6 3 7 3) off) = some (.opcode 0xBB9BB6#24) := by decide +kernel
theorem test_table_write_high_byte_v66_v69 :
    lastReply (after cfg (.tableWriteHighByte 6 3 7 5) off) = some (.opcode 0xBBEBB6#24) ∧
    lastReply (after cfg (.tableWriteHighByte 0 2 0 4) off) = some (.opcode 0xBBE020#24) := by decide +kernel
theorem test_encoder_refusals : lastReply (after cfg (.loadImmediate 0x10000 0) on) = some (.refused .operandOutOfRange) ∧
    lastReply (after cfg (.tableReadLow 0 0 0 6) on) = some (.refused .operandOutOfRange) := by decide +kernel

/-! ### Helpers and packing (V70 to V83) -/

theorem test_upper8_lower16 : upper8 0x1234567 = 0x23#8 ∧ lower16 0x12ABCD = 0xABCD#16 := by decide +kernel
theorem test_combine24_v75 : combine24 0x5678#16 0xAB34#16 = 0x345678#24 := by decide +kernel
theorem test_pack6_v77_v80 : pack6 0x1111 0x0022 0x3333 0x0044 0x5555 0x0066 0x7777 0x0088 =
    ⟨0x1111, 0x4422, 0x3333, 0x5555, 0x8866, 0x7777⟩ ∧
    pack6 0 0xFFFF 0 0 0 0 0 0 = ⟨0, 0x00FF, 0, 0, 0, 0⟩ := by decide +kernel
theorem test_pack_step_v82 : packStep [0x0200, 0x0004, 0x0000] 0 = (⟨0x0200, 0x0004, 0, 0, 0, 0⟩, 8) := by decide +kernel

/-! ### The host's sequences, with the values of P2 and P3 -/

/-- The profile values of section 3 of 95_test_vectors.md; the registers and modes are arbitrary. -/
def profile : HostProfile :=
  { tblpagAddr := 0x32, nvmconAddr := 0x0760, visiAddr := 0x0784, startAddr := 0x0200, devidAddr := 0xFF0000,
    patEraseAll := 0, patWriteRow := 0, patWriteWord := 0, wrMask := 0x8000, configStart := 0x00ABFA, configCount := 1,
    writeInitiateBit := 15, wPtr := 7, wVisi := 8, wData := 0, wSrc := 6, w1 := 0, w2 := 1, w3 := 2, w4 := 3, w5 := 4,
    w6 := 5, readSrcMode := .indirect, readDstMode := .indirect, eraseSrc := 0, eraseSrcMode := .direct, eraseDst := 7,
    eraseDstMode := .indirect, wConfig := 0, configSrc := 0, configSrcMode := .direct, configDst := 7,
    configDstMode := .indirect, step1SrcMode := .indirect, step1DstMode := .indirectPostIncrement,
    step8SrcMode := .indirect, step8DstMode := .indirect }

theorem test_preamble_p2 : preamble profile = [.six 0x000000#24, .six 0x040200#24, .six 0x000000#24] := by decide
theorem test_poll_p3 : startWrite profile ++ pollRound profile =
    [.six 0xA8E761#24, .six 0x803B00#24, .six 0x883C20#24, .regout] ∧
    pollEnds profile 0x8001 = false ∧ pollEnds profile 0x0001 = true := by decide
-- an operand outside its type is refused, not cut: no SIX goes out for it (R131)
theorem test_preamble_refused : preamble { profile with startAddr := 0x10000 } = [.six 0, .jump 0x10000, .six 0] := by decide
theorem test_config_data_refused : sixOf (.loadImmediate 0x10000 profile.wConfig) = .loadImmediate 0x10000 0 ∧
    sixOf (.loadImmediate 0xFFFF profile.wConfig) = .six 0x2FFFF0#24 := by decide
theorem test_row_packings : rowPackings profile = 16 := by decide
theorem test_row_limit : rowLimit profile = 0x00AB80 := by decide
theorem test_row_calls_v83 : [0, 1, 128, 129].map (rowCalls profile) = [0, 1, 1, 2] := by decide
-- P3: the host goes round again on 0x8001 and ends on 0x0001
theorem test_poll_program_p3 :
    pollProgram profile .stop [.done, .done, .value 0x8001] = some (.op (.six 0x803B00#24)) ∧
    pollProgram profile .stop [.done, .done, .value 0x8001, .done, .done] = some (.op .regout) ∧
    pollProgram profile .stop [.done, .done, .value 0x8001, .done, .done, .value 0x0001] = none := by decide

/-! ### Reset and one step from it -/

theorem test_reset : State.reset.session = .closed ∧ State.reset.clk = false ∧ State.reset.dir = .drive ∧
    State.reset.trace = [] ∧ State.reset.host = [] := ⟨rfl, rfl, rfl, rfl, rfl⟩
theorem test_step_open_from_reset : ∃ t, step (State.reset.withFetchWord 8 0) = .next t ∧ t.session = .active :=
  ⟨_, rfl, rfl⟩
theorem test_step_six_from_reset : ∃ t, step (State.reset.withFetchWord 8 1) = .next t ∧
    t.replies = [.refused .wrongSessionState] := ⟨_, rfl, rfl⟩
theorem test_step_jump_from_reset : ∃ t, step (State.reset.withFetchWord 24 0x041234) = .next t ∧
    t.replies = [.opcode 0x041234#24] := ⟨_, rfl, rfl⟩
theorem test_step_frames_from_reset : (∃ t, step (State.reset.withFetchWord 28 0x0412340) = .next t ∧ t.replies = [.done]) ∧
    (∃ t, step (State.reset.withFetchWord 5 0) = .next t ∧ t.replies = [.done]) := ⟨⟨_, rfl, rfl⟩, _, rfl, rfl⟩
-- 40_bit_transfer.md: the host reaches the cells only through the four commands
theorem test_frame_is_no_request : step { on with host := [.word ⟨.frame28, 28, 0⟩] } = .refused .notAtThePort ∧
    step { off with host := [.op (.sendBit true)] } = .refused .notAtThePort := ⟨rfl, rfl⟩
-- U4: a mode of 6, and an operand outside its width
theorem test_step_refuses_operands : step { on with host := [.word ⟨.opcode, 24, 0xBA0060⟩] } =
      .next { on with replies := [.refused .operandOutOfRange] } ∧
    step { off with host := [.op (.jump 65536)] } = .next { off with replies := [.refused .operandOutOfRange] } :=
  ⟨rfl, rfl⟩
theorem test_micro_step : microStep { on with inFlight := some (closeJob cfg), useq := 1 } =
    .next { on with inFlight := some (closeJob cfg), useq := 2, trace := [.wait 5000] } := rfl

/-! ### Witnesses: for each obligation with hypotheses, a state and operands that meet them -/

/-- A free port at which the host presents OPEN, then `SIX(0x040200)`. -/
def offered : State := { off with host := [.word ⟨.command, 26, 0⟩, .op (.six 0x040200#24)] }

/-- The end of the pulse of a cell carrying a one, event by event: the clock is high. -/
def inPulse : State := { on with inFlight := some (jobOf Config.engine (.sendBit true)), useq := 3, clk := true, dout := true }

/-- A refusal has been returned. -/
def wasRefused : State := { on with replies := [.refused .wrongSessionState] }

theorem witness_nothing_happens : off.inFlight = none ∧ off.host = [] := ⟨rfl, rfl⟩
theorem witness_step_runs : offered.inFlight = none ∧ (∃ rest, offered.host = .word ⟨.command, 26, 0⟩ :: rest) ∧
    decode ⟨.command, 26, 0⟩ = .ok .openCmd ∧ Instr.openCmd.isRequest = true ∧ (Instr.sendBit true).isRequest = false :=
  ⟨rfl, ⟨_, rfl⟩, rfl, rfl, rfl⟩
theorem witness_stored_table_word : decodeTableWord 24 0x041234 = some (.jump 0x1234) ∧
    decodeTableWord 8 1 = some (.six 0) ∧ decodeTableWord 28 0x0412340 = some (.sixFrame 0x041234#24) ∧
    decodeTableWord 5 0 = some .flushFrame := by decide
theorem witness_step_completes : ({ on with inFlight := some (closeJob cfg), useq := 1 } : State).inFlight =
    some (closeJob cfg) := rfl
theorem witness_every_pulse : (jobOf cfg (.sendBit true)).script[2]? = some (.emit (.clk true)) ∧
    (jobOf cfg .regout).script[138]? = some (.emit (.clk true)) := by decide +kernel
theorem witness_frame_numbers (i : Instr) (n : Nat) :
    (i = .keyFrame ∧ n = Config.engine.keyLen → (encode i).width = n) ∧ (i = .flushFrame ∧ n = 5 → (encode i).width = n) ∧
    (i = .regoutFrame ∧ n = 12 → (encode i).bits = 1) ∧ ((∃ o, i = .sixFrame o) ∧ n = 28 → (encode i).width = n) := by
  refine ⟨?_, ?_, ?_, ?_⟩
  · rintro ⟨rfl, rfl⟩; rfl
  · rintro ⟨rfl, rfl⟩; rfl
  · rintro ⟨rfl, rfl⟩; rfl
  · rintro ⟨⟨o, rfl⟩, rfl⟩; rfl
theorem witness_open : off.session = .closed := rfl
theorem witness_six_regout_close : on.session = .active := rfl
theorem witness_wrong_session : on.session = .active ∧ off.session = .closed := ⟨rfl, rfl⟩
theorem witness_command_totals : (List.replicate 16 true).length = cfg.nRegoutData ∧ SpecCounts cfg :=
  ⟨rfl, rfl, rfl, rfl, rfl, rfl⟩
theorem witness_only_open_and_close : (∃ t, exec .openCmd off = .next t ∧ t.session = .active) ∧
    (on.session = .active ∧ ∃ t, exec .closeCmd on = .next t ∧ t.session = .closed) :=
  ⟨⟨_, rfl, rfl⟩, rfl, _, rfl, rfl⟩
theorem witness_refused_requests : ∃ t, exec .openCmd on = .next t ∧
    t.replies = on.replies ++ [.refused .wrongSessionState] := ⟨_, rfl, rfl⟩
theorem witness_refused_encoder_call : ∃ t, exec (.jump 65536) on = .next t ∧
    t.replies = on.replies ++ [.refused .operandOutOfRange] := ⟨_, rfl, rfl⟩
theorem witness_line_levels : off.dir = .drive ∧ on.dir = .drive ∧ (off.session = .closed ∧ ∃ t, exec .openCmd off = .next t) ∧
    on.session = .active ∧ (∃ t, exec (.six 0xFFFFFF#24) on = .next t) ∧ (∃ t, exec .regout on = .next t) ∧
    ∃ t, exec .closeCmd on = .next t := ⟨rfl, rfl, ⟨rfl, _, rfl⟩, rfl, ⟨_, rfl⟩, ⟨_, rfl⟩, _, rfl⟩
theorem witness_load_immediate : (65535 < 65536 ∧ 15 < 16) ∧
    lastReply (after cfg (.loadImmediate 65535 15) off) = some (.opcode 0x2FFFFF#24) := by decide +kernel
theorem witness_store : (15 < 16 ∧ 65535 < 65536) ∧
    lastReply (after cfg (.store 15 65535) off) = some (.opcode 0x8FFFFF#24) := by decide +kernel
theorem witness_retrieve : (1 < 65536 ∧ 0 < 16) ∧
    lastReply (after cfg (.retrieve 1 0) off) = some (.opcode 0x800000#24) := by decide +kernel
theorem witness_jump : 65535 < 65536 ∧ decode ⟨.opcode, 24, 0x04FFFF⟩ = .ok (.jump 65535) := ⟨by decide, rfl⟩
theorem witness_bit_set : (0x1FFE < 65536 ∧ 15 < 16) ∧
    lastReply (after cfg (.bitSet 0x1FFE 15) off) = some (.opcode 0xA8FFFF#24) := by decide +kernel
theorem witness_table_operations : (15 < 16 ∧ 5 < 6 ∧ 15 < 16 ∧ 5 < 6) ∧
    lastReply (after cfg (.tableWriteHighByte 15 5 15 5) off) = some (.opcode 0xBBEFDF#24) := by decide +kernel
theorem witness_ill_typed : ({ on with host := [.op (.jump 65536)] } : State).inFlight = none ∧ (Instr.jump 65536).wf = false ∧
    (Instr.tableWriteHigh 0 6 0 0).wf = false ∧ (Instr.tableWriteHigh 0 5 0 0).wf = true := by decide
theorem witness_encoder_result : isEncoderCall (.bitSet 0xFFFF 15) ∧ (Instr.bitSet 0xFFFF 15).wf = true := ⟨rfl, by decide⟩
theorem witness_decode_of_encode : (Instr.store 15 0xFFFE).wf = true ∧ 0xFFFE % 2 = 0 ∧ (Instr.retrieve 0xFFFE 15).wf = true ∧
    (Instr.bitSet 8190 15).wf = true ∧ 8190 % 2 = 0 ∧ 8190 < 8192 ∧ (Instr.bitSet 8192 15).wf = true ∧
    (Instr.bitSet 8192 15).canonical = .bitSet 0 15 ∧ (Instr.jump 0xFFFF).canonical = .jump 0xFFFF := by decide
theorem witness_decoded_opcodes : (⟨.opcode, 24, 0xBBEBB6⟩ : PortWord).format = .opcode ∧
    decode ⟨.opcode, 24, 0xBBEBB6⟩ = .ok (.tableWriteHighByte 6 3 7 5) := ⟨rfl, rfl⟩
theorem witness_reserved_control_codes : (2 < 2 ^ 28 ∧ 2 ≤ 2 % 16) ∧ (0xFFFFFFF < 2 ^ 28 ∧ 2 ≤ 0xFFFFFFF % 16) ∧
    (0x011 < 2 ^ 28 ∧ 0x011 % 16 = 1 ∧ 0x011 / 16 % 256 ≠ 0) ∧ (0x801 < 2 ^ 28 ∧ 0x801 % 16 = 1 ∧ 0x801 / 16 % 256 ≠ 0) := by decide
theorem witness_reserved_selectors : ∀ b ∈ [0xBA4000, 0xBAC000, 0xBB4000, 0xBB7FFF],
    b < 2 ^ 24 ∧ b / 2 ^ 17 = 93 ∧ b / 2 ^ 14 % 8 ∈ [1, 3, 5] := by decide
theorem witness_reserved_modes : ∀ b ∈ [0xBA0060, 0xBA3000, 0xBBC070, 0xBBF800],
    b < 2 ^ 24 ∧ b / 2 ^ 17 = 93 ∧ b / 2 ^ 14 % 8 ∉ [1, 3, 5] ∧ (6 ≤ b / 2 ^ 4 % 8 ∨ 6 ≤ b / 2 ^ 11 % 8) := by decide
theorem witness_reserved_step : ∃ s w rest, s.inFlight = none ∧ s.host = .word w :: rest ∧
    decode w = .error .reservedControlCode ∧ step s = .refused (.undecodable .reservedControlCode) :=
  ⟨{ on with host := [.word ⟨.frame28, 28, 2⟩] }, _, [], rfl, rfl, rfl, rfl⟩
theorem witness_reserved_mode_step : ∃ s w rest, s.inFlight = none ∧ s.host = .word w :: rest ∧
    decode w = .error .reservedTableMode ∧ ∃ t, step s = .next t :=
  ⟨{ on with host := [.word ⟨.opcode, 24, 0xBBF800⟩] }, _, [], rfl, rfl, rfl, _, rfl⟩
theorem witness_opcode_rows : isEncoderCall .nop ∧ Instr.nop.wf = true ∧
    (opcodeRows.filter fun r => r.matches (encode (.jump 0)).bits).map OpcodeRow.mnemonic = ["JUMP"] :=
  ⟨rfl, rfl, by decide⟩
theorem witness_upper : (7 < 8 ∧ (upper8 0xFF0000).getLsbD 7 = true) ∧ upper8 0x1FFFFFF = 0xFF#8 := by decide
theorem witness_lower : 0xFFFFFF < 2 ^ 24 ∧ upper8 0xFFFFFF = 0xFF#8 ∧ lower16 0xFFFFFF = 0xFFFF#16 := by decide
theorem witness_combine : 0x345678 < 2 ^ 24 ∧ (0xAB34#16).extractLsb' 0 8 = upper8 0x345678 := by decide
theorem witness_fetch_next : (2 < [1#16, 2#16, 3#16].length ∧ fetchNext [1#16, 2#16, 3#16] 2 = (3#16, 3)) ∧
    ([1#16, 2#16, 3#16].length ≤ 3 ∧ fetchNext [1#16, 2#16, 3#16] 3 = (0#16, 4)) := by decide
theorem witness_row : [1#16].length ≤ 1 ∧ (packRow [1#16] 1).1 = List.replicate 96 0#16 := by decide +kernel
theorem witness_lines_at_rest : offered.idle ∧ offered.linesRest ∧ ∃ t, step offered = .next t ∧ t.session = .active :=
  ⟨⟨rfl, rfl, rfl⟩, ⟨rfl, rfl⟩, _, rfl, rfl⟩
theorem witness_session_history : offered.idle ∧ offered.sessionHistory 0 ∧ (∃ t, step offered = .next t) ∧
    ({ off with trace := sessionVerbs.map Event.rst } : State).sessionHistory 1 :=
  ⟨⟨rfl, rfl, rfl⟩, rfl, ⟨_, rfl⟩, rfl⟩
theorem witness_latches : offered.latchesFollow offered ∧ (∃ t, step offered = .next t) ∧ ∃ t, microStep offered = .next t :=
  ⟨⟨rfl, rfl, rfl, rfl⟩, ⟨_, rfl⟩, _, rfl⟩
theorem witness_discipline : offered.idle ∧ offered.disciplined ∧ ∃ t, step offered = .next t :=
  ⟨⟨rfl, rfl, rfl⟩, rfl, _, rfl⟩
theorem witness_only_grow : (∃ t, step offered = .next t) ∧ (∃ t, microStep inPulse = .next t) ∧
    .refused .wrongSessionState ∈ wasRefused.replies ∧ ∃ t, step wasRefused = .next t :=
  ⟨⟨_, rfl⟩, ⟨_, rfl⟩, List.mem_singleton.mpr rfl, _, rfl⟩
theorem witness_good_end : on.session = .active ∧ on.host = [] ∧ (∀ r, .refused r ∉ on.replies) ∧
    HostProgram.stop (on.replies ++ [.done]) = none := ⟨rfl, rfl, fun _ => List.not_mem_nil, rfl⟩
theorem witness_small_steps : (Request.read (.word ⟨.command, 26, 0⟩) = .run .openCmd) ∧ (offered.refusal (jobOf Config.engine .openCmd) = none) ∧
    (jobOf Config.engine (.sendBit true)).script[inPulse.useq]? = some (.emit (.clk false)) ∧
    ({ inPulse with useq := 5 } : State).useq = (jobOf Config.engine (.sendBit true)).script.length := ⟨rfl, rfl, rfl, rfl⟩
theorem witness_clock_in_pulse : ClockInPulse inPulse ∧ inPulse.clk = true ∧ ∃ t, microStep inPulse = .next t ∧ t.clk = false := by
  refine ⟨⟨fun h => (Option.some_ne_none _ h).elim, fun j h => ?_⟩, rfl, _, rfl, rfl⟩
  obtain rfl : jobOf Config.engine (.sendBit true) = j := Option.some.inj h
  exact ⟨⟨_, rfl⟩, fun _ => rfl⟩
theorem witness_refinement : (∃ t, step offered = .next t) ∧ offered.inFlight = none ∧
    offered.refusal (jobOf Config.engine .openCmd) = none ∧
    ∃ r, step { on with host := [.word ⟨.frame28, 28, 2⟩] } = .refused r := ⟨⟨_, rfl⟩, rfl, rfl, _, rfl⟩
theorem witness_host_requests : offered.inFlight = none ∧ ∃ t, step offered = .next t ∧ t.session = .active :=
  ⟨rfl, _, rfl, rfl⟩

/-- A host that opens and closes for ever, before a target that shows ones. -/
def endlessWorld : World where
  host := .forever fun n => .op (if n % 2 = 0 then .openCmd else .closeCmd)
  target := fun _ => true

/-- A host that polls, before a target whose status stays busy. -/
def busyWorld : World where
  host := .ask [.openCmd] (pollProgram profile .stop)
  target := fun _ => true

/-- A host that polls and closes, before a target that is busy once. -/
def busyOnceWorld : World where
  host := inSession (pollProgram profile)
  target := fun n => n == 15

theorem witness_endless_program (n : Nat) (r : Refusal) :
    Request.read (.op (if n % 2 = 0 then .openCmd else .closeCmd)) ≠ .stop r := by
  split <;> exact nofun
theorem witness_endless_poll (k : Nat) : stillWriting profile.wrMask (busyWorld.value k) = true := by
  have h : busyWorld.value k = busyWorld.value 0 := rfl
  rw [h]
  decide +kernel
theorem witness_poll_ends : (∀ j < 1, stillWriting profile.wrMask (busyOnceWorld.value j) = true) ∧
    stillWriting profile.wrMask (busyOnceWorld.value 1) = false := by decide

end Sys2Proof.Tests
end

section
/-! PROOFS. The statements of 00_scope.md: what every step keeps, how small steps refine a step, what the target can
influence, and what a step runs. -/

namespace Sys2Proof.Machine

open Sys2Proof.Claims

/-! ### What every operation keeps, every step keeps -/

/-- The property survives each shared operation a step is made of: an action, the acceptance of an operation, its return,
a refusal, and a request that stops waiting. -/
structure KeptByOps (P : State → Prop) : Prop where
  act : ∀ s a, P s → P (s.act a)
  accept : ∀ s j, P s → P (s.accept j)
  complete : ∀ s j, P s → P (s.complete j)
  refuse : ∀ s r, P s → P (s.refuse r)
  taken : ∀ s rest, P s → P { s with host := rest }

namespace KeptByOps

variable {P : State → Prop}

theorem acts (hP : KeptByOps P) (s : State) (as : List Act) (h : P s) : P (s.acts as) := by
  induction as generalizing s with
  | nil => exact h
  | cons a as ih => exact ih _ (hP.act s a h)

theorem finish (hP : KeptByOps P) (s : State) (j : Job) (h : P s) : P (s.finish j) :=
  hP.complete _ j (hP.acts s _ h)

theorem perform (hP : KeptByOps P) (s : State) (j : Job) (h : P s) : P (s.perform j) := by
  obtain ⟨r, -, hr⟩ | ⟨-, hf⟩ := perform_cases s j
  · rw [hr]
    exact hP.refuse s r h
  · rw [hf]
    exact hP.finish _ j (hP.accept s j h)

theorem takeUp (hP : KeptByOps P) (s : State) (j : Job) (h : P s) : P (s.takeUp j) := by
  unfold State.takeUp
  split
  · exact hP.refuse s _ h
  · exact hP.accept s j h

theorem step (hP : KeptByOps P) {s t : State} (h : P s) (hs : Machine.step s = .next t) : P t := by
  obtain ⟨j, -, rfl⟩ | ⟨_, rest, i, -, -, -, rfl⟩ | ⟨_, rest, reason, -, -, -, rfl⟩ | ⟨-, -, rfl⟩ := step_next hs
  · exact hP.finish s j h
  · exact hP.perform _ _ (hP.taken s rest h)
  · exact hP.refuse _ reason (hP.taken s rest h)
  · exact h

theorem microStep (hP : KeptByOps P) {s t : State} (h : P s) (hs : Machine.microStep s = .next t) : P t := by
  obtain ⟨j, a, -, -, rfl⟩ | ⟨j, -, -, rfl⟩ | ⟨_, rest, i, -, -, -, rfl⟩ | ⟨_, rest, reason, -, -, -, rfl⟩ |
    ⟨-, -, rfl⟩ := microStep_next hs
  · exact hP.act s a h
  · exact hP.complete s j h
  · exact hP.takeUp _ _ (hP.taken s rest h)
  · exact hP.refuse _ reason (hP.taken s rest h)
  · exact h

end KeptByOps

/-! ### The latches follow the trace -/

/-- What a latch's events in a trace leave it at, one event later. -/
theorem getLast_filterMap_concat_getD {α : Type} (f : Event → Option α) (tr : List Event) (e : Event) (d : α) :
    (((tr ++ [e]).filterMap f).getLast?).getD d = (f e).getD (((tr.filterMap f).getLast?).getD d) := by
  rw [List.filterMap_append]
  cases h : f e <;> simp [h, -List.getLast?_filterMap]

/-! The event table of R9, latch by latch: a latch holds what the event writes to it, else what it held. -/

theorem emit_rst_eq (s : State) (e : Event) : (s.emit e).rst = e.resetVerb.getD s.rst := by cases e <;> rfl
theorem emit_dir_eq (s : State) (e : Event) : (s.emit e).dir = e.dirMode.getD s.dir := by cases e <;> rfl
theorem emit_dout_eq (s : State) (e : Event) : (s.emit e).dout = e.doutBit.getD s.dout := by cases e <;> rfl
theorem emit_clk_eq (s : State) (e : Event) : (s.emit e).clk = e.clkLevel.getD s.clk := by cases e <;> rfl

theorem emit_latchesFollow {s p : State} (e : Event) (h : s.latchesFollow p) : (s.emit e).latchesFollow p := by
  obtain ⟨hrst, hdir, hdout, hclk⟩ := h
  simp only [State.latchesFollow, resetVerbs, outBits, emit_trace, getLast_filterMap_concat_getD]
  exact ⟨(emit_rst_eq s e).trans (congrArg _ hrst), (emit_dir_eq s e).trans (congrArg _ hdir),
    (emit_dout_eq s e).trans (congrArg _ hdout), (emit_clk_eq s e).trans (congrArg _ hclk)⟩

theorem latchesFollow_keptByOps (p : State) : KeptByOps (·.latchesFollow p) where
  act s a h := by
    cases a with
    | emit e => exact emit_latchesFollow e h
    | sample => exact emit_latchesFollow (s := s.drawn) (.din s.sampled) h
  accept _ _ h := h
  complete _ _ h := h
  refuse _ _ h := h
  taken _ _ h := h

/-! ### The step and the small step at a free port -/

theorem step_inFlight {s : State} {j : Job} (h : s.inFlight = some j) : step s = .next (s.finish j) := by
  simp [step, h]

section FreePort

variable {s : State} {r : Request} {rest : List Request} (hf : s.inFlight = none) (hh : s.host = r :: rest)
include hf hh

theorem step_run {i : Instr} (hr : r.read = .run i) : step s = exec i { s with host := rest } := by
  simp [step, fetch, hf, hh, hr]

theorem step_stop {q : Refusal} (hr : r.read = .stop q) : step s = .refused q := by
  simp [step, fetch, hf, hh, hr]

theorem microStep_run {i : Instr} (hr : r.read = .run i) :
    microStep s = .next (State.takeUp { s with host := rest } (jobOf Config.engine i)) := by
  simp [microStep, fetch, hf, hh, hr]

theorem microStep_refuse {reason : RefusalReason} (hr : r.read = .refuse reason) :
    microStep s = .next (State.refuse { s with host := rest } reason) := by
  simp [microStep, fetch, hf, hh, hr]

theorem microStep_stop {q : Refusal} (hr : r.read = .stop q) : microStep s = .refused q := by
  simp [microStep, fetch, hf, hh, hr]

end FreePort

/-- A step stops only at a free port, where the host presents what is no request. -/
theorem step_refused {s : State} {q : Refusal} (h : step s = .refused q) :
    ∃ r rest, s.inFlight = none ∧ s.host = r :: rest ∧ r.read = .stop q := by
  cases hf : s.inFlight with
  | some j =>
    rw [step_inFlight hf] at h
    cases h
  | none =>
    cases hh : s.host with
    | nil => simp [step, fetch, hf, hh] at h
    | cons r rest =>
      refine ⟨r, rest, rfl, rfl, ?_⟩
      cases hr : r.read with
      | run i =>
        rw [step_run hf hh hr, exec_eq] at h
        cases h
      | refuse reason => simp [step, fetch, hf, hh, hr] at h
      | stop q' =>
        rw [step_stop hf hh hr] at h
        cases h
        rfl

/-! ### Runs of small steps -/

theorem microRun_succ {s t : State} (n : Nat) (h : microStep s = .next t) : microRun (n + 1) s = microRun n t := by
  simp [microRun, h]

/-- A request admitted at the free port: one small step for its admission, one for each event, one for its return (R27). -/
theorem microRun_admitted {s : State} {r : Request} {rest : List Request} {i : Instr} (hf : s.inFlight = none)
    (hh : s.host = r :: rest) (hr : r.read = .run i) (ha : s.refusal (jobOf Config.engine i) = none) :
    microRun ((jobOf Config.engine i).script.length + 2) s =
      .next (State.perform { s with host := rest } (jobOf Config.engine i)) := by
  have ha' : State.refusal { s with host := rest } (jobOf Config.engine i) = none := ha
  rw [microRun_succ _ (microStep_run hf hh hr), State.takeUp, ha', State.perform, ha']
  exact microRun_inFlight _ _ _ (accept_inFlight _ _) (by simp)

/-- A request refused at the free port: one small step. -/
theorem microRun_refused {s : State} {r : Request} {rest : List Request} {i : Instr} {reason : RefusalReason}
    (hf : s.inFlight = none) (hh : s.host = r :: rest) (hr : r.read = .run i)
    (ha : s.refusal (jobOf Config.engine i) = some reason) :
    microRun 1 s = .next (State.perform { s with host := rest } (jobOf Config.engine i)) := by
  have ha' : State.refusal { s with host := rest } (jobOf Config.engine i) = some reason := ha
  rw [microRun_succ _ (microStep_run hf hh hr), State.takeUp, ha', perform_refused _ _ _ ha']
  rfl

/-- Every step that answers a next state is a run of small steps. -/
theorem microRun_of_step {s t : State} (h : step s = .next t) : ∃ n, microRun n s = .next t := by
  obtain ⟨j, hf, rfl⟩ | ⟨r, rest, i, hf, hh, hr, rfl⟩ | ⟨r, rest, reason, hf, hh, hr, rfl⟩ | ⟨-, -, rfl⟩ := step_next h
  · exact ⟨_, microRun_inFlight j _ s hf rfl⟩
  · cases ha : s.refusal (jobOf Config.engine i) with
    | none => exact ⟨_, microRun_admitted hf hh hr ha⟩
    | some reason => exact ⟨1, microRun_refused hf hh hr ha⟩
  · exact ⟨1, microRun_succ 0 (microStep_refuse hf hh hr)⟩
  · exact ⟨0, rfl⟩

/-! ### The target's bits forgotten -/

/-- The events of a list differ only in the bits sensed, whatever the samples. -/
theorem map_blankBit_events (as : List Act) (xs : List Bool) : (events as xs).map blankBit = (events as []).map blankBit := by
  induction as generalizing xs with
  | nil => rfl
  | cons a as ih =>
    cases a with
    | emit e => simp [events, ih xs]
    | sample => cases xs with
      | nil => rfl
      | cons x xs => simp [events, blankBit, ih xs]

/-- No latch holds a sensed bit (R9). -/
theorem latched_map_blankBit (s : State) (tr : List Event) : latched s (tr.map blankBit) = latched s tr := by
  induction tr generalizing s with
  | nil => rfl
  | cons e tr ih =>
    have he : s.latch (blankBit e) = s.latch e := by cases e <;> rfl
    rw [List.map_cons, latched_cons, latched_cons, he, ih]

/-- The latches a list of actions leaves do not depend on its samples. -/
theorem latched_events (s : State) (as : List Act) (xs : List Bool) : latched s (events as xs) = latched s (events as []) := by
  rw [← latched_map_blankBit, map_blankBit_events, latched_map_blankBit]

/-- What an operation leaves does not depend on the target, once what the target supplied is forgotten (R11, R32). -/
theorem forgetTarget_perform (s : State) (j : Job) (bs : List Bool) (n : Nat) :
    forgetTarget (State.perform { s with targetBits := bs, draws := n } j) = forgetTarget (s.perform j) := by
  have href : State.refusal { s with targetBits := bs, draws := n } j = s.refusal j := rfl
  cases hr : s.refusal j with
  | some r =>
    rw [perform_refused _ _ _ (href.trans hr), perform_refused _ _ _ hr]
    rfl
  | none =>
    rw [perform_admitted _ _ (href.trans hr), perform_admitted _ _ hr, latched_events, latched_events s]
    simp only [forgetTarget, List.map_append, map_blankBit_events j.script (State.samples _ _)]
    cases j.answer <;> rfl

/-! ### A command in flight -/

/-- The events still to come are appended, sampling the target's next bits. -/
theorem acts_trace (s : State) (as : List Act) :
    (s.acts as).trace = s.trace ++ events as (samplesOf s (sampleCount as)) := by
  rw [acts_eq, samples_eq]
  rfl

/-! ### The numbers of the frames -/

/-- The KEY frame's number holds the key's most significant bit first (R62). -/
theorem range_testBit_keyFrameNumber (key n : Nat) :
    (List.range n).map (keyFrameNumber key n).testBit = msbBits key n := by
  induction n with
  | zero => rfl
  | succ n ih =>
    have hhead : ((key.testBit n).toNat + 2 * keyFrameNumber key n).testBit 0 = key.testBit n := by
      cases key.testBit n <;> simp [Nat.testBit_zero]
    have htail (k : Nat) : ((key.testBit n).toNat + 2 * keyFrameNumber key n).testBit (k + 1) =
        (keyFrameNumber key n).testBit k := by
      rw [Nat.testBit_succ]
      congr 1
      have := Bool.toNat_lt (key.testBit n)
      omega
    rw [msbBits_succ, ← ih, List.range_succ_eq_map, List.map_cons, List.map_map, keyFrameNumber, hhead]
    exact congrArg _ (List.map_congr_left fun k _ => htail k)

/-- The SIX frame's number holds four zeros, then the opcode's least significant bit first (R64). -/
theorem range_testBit_sixFrameNumber (opcode : Opcode) :
    (List.range 28).map (sixFrameNumber opcode).testBit = List.replicate 4 false ++ lsbBits opcode.toNat 24 := by
  have hbit (k : Nat) : (sixFrameNumber opcode).testBit k = (decide (4 ≤ k) && opcode.toNat.testBit (k - 4)) :=
    Nat.testBit_two_pow_mul (i := 4)
  have hlow : (List.range 4).map (sixFrameNumber opcode).testBit = List.replicate 4 false := by
    simp [hbit, List.range_succ]
  rw [show 28 = 4 + 24 from rfl, List.range_add, List.map_append, hlow, List.map_map, lsbBits]
  exact congrArg _ (List.map_congr_left fun k _ => by simp [hbit])

/-- The outbound bits of an operation that no session state admits or refuses are those of its list. -/
theorem exec_outBits {i : Instr} (s : State) {bits : List Bool} (hn : (jobOf Config.engine i).needs = none)
    (ht : (jobOf Config.engine i).typed = true)
    (hb : ∀ xs, xs.length = sampleCount (jobOf Config.engine i).script →
      outBits (events (jobOf Config.engine i).script xs) = bits) :
    ∃ t seg, exec i s = .next t ∧ t.trace = s.trace ++ seg ∧ outBits seg = bits := by
  refine ⟨_, _, exec_eq i s, ?_, hb _ (samples_length s _)⟩
  rw [perform_admitted _ _ (refusal_none s _ hn ht)]

end Sys2Proof.Machine

namespace Sys2Proof.Proofs

open Sys2Proof.Machine Sys2Proof.Claims

/-- Settles O48: the invariant survives each shared operation, so every step and every small step keeps it. -/
theorem latchesAlwaysHoldTheirLastEvent : Obligations.LatchesAlwaysHoldTheirLastEvent :=
  ⟨fun p _ _ h hs => (latchesFollow_keptByOps p).step h hs, fun p _ _ h hs => (latchesFollow_keptByOps p).microStep h hs⟩

/-- Settles O54: by the cases of a step; an operation accepted runs to its end in small steps (`microRun_inFlight`). -/
theorem smallStepsRefineTheStep : Obligations.SmallStepsRefineTheStep := by
  refine ⟨fun s t => microRun_of_step, fun s r rest i hf hh hr ha => ?_, fun s q h => ?_⟩
  · rw [microRun_admitted hf hh hr ha, step_run hf hh hr, exec_eq]
  · obtain ⟨r, rest, hf, hh, hr⟩ := step_refused h
    simp [microRun, microStep_stop hf hh hr]

/-- Settles O55: both runs leave what the operation leaves in `s`, the target's part forgotten. -/
theorem theTargetInfluencesOnlyWhatIsRead : Obligations.TheTargetInfluencesOnlyWhatIsRead := fun i s bs bs' n n' =>
  ⟨_, _, exec_eq i _, exec_eq i _, (forgetTarget_perform s _ bs n).trans (forgetTarget_perform s _ bs' n').symm⟩

/-- Settles O5: the step finishes the operation in flight. -/
theorem stepCompletesTheCommandInFlight : Obligations.StepCompletesTheCommandInFlight := by
  intro s j hf
  refine ⟨s.finish j, step_inFlight hf, ?_⟩
  simp [State.finish, acts_trace]

/-- Settles O15: frame by frame, the bits of the number are those its cells carry. -/
theorem frameNumbersReadTheirCellsInTimeOrder : Obligations.FrameNumbersReadTheirCellsInTimeOrder := by
  rintro s i n (⟨rfl, rfl⟩ | ⟨rfl, rfl⟩ | ⟨rfl, rfl⟩ | ⟨⟨opcode, rfl⟩, rfl⟩)
  · refine exec_outBits s rfl rfl fun xs _ => ?_
    simp only [jobOf, frameJob, events_keyCells, outBits_outCells]
    exact (range_testBit_keyFrameNumber _ _).symm
  · refine exec_outBits s rfl rfl fun xs _ => ?_
    simp only [jobOf, frameJob, events_flushCells, outBits_outCells]
    decide
  · refine exec_outBits s rfl rfl fun xs hx => ?_
    have hx : xs.length = 16 := by simpa [jobOf, frameJob] using hx
    simp only [jobOf, frameJob, events_regoutCells_engine xs hx, outBits_append, outBits_outCells, outBits_inCells]
    decide
  · refine exec_outBits s rfl rfl fun xs _ => ?_
    simp only [jobOf, frameJob, events_sixCells, outBits_outCells]
    exact (range_testBit_sixFrameNumber opcode).symm

/-- Settles O3: the port reads the request as its instruction, or as no request. -/
theorem stepRunsTheDecodedRequest : Obligations.StepRunsTheDecodedRequest := by
  intro s r rest i hf hh hi
  have hr : r.read = atThePort i := by
    obtain rfl | ⟨w, rfl, hw⟩ := hi
    · rfl
    · simp [Request.read, hw]
  refine ⟨fun hq => step_run hf hh ?_, fun hq => step_stop hf hh ?_⟩ <;> simp [hr, atThePort, hq]

/-- Settles O6: each event's row of the event table. -/
theorem eachEventIsTracedAndWritesItsOwnLatch : Obligations.EachEventIsTracedAndWritesItsOwnLatch := fun _ =>
  ⟨fun _ => rfl, fun _ => rfl, fun _ => rfl, fun _ => rfl, fun _ => rfl, fun _ => rfl⟩

end Sys2Proof.Proofs
end

section
/-! PROOFS. The statements of 10_state.md: power-on, the resting lines and the session history that every step keeps, the
discipline of the lines, the levels of the lines after each command, and the engine event by event. -/

namespace Sys2Proof.Machine

open Sys2Proof.Claims

/-! ### An operation performed at a free port -/

/-- An operation that names a session state is admitted in that state only (R114). -/
theorem session_of_admitted {s : State} {j : Job} {m : Session} (ha : s.refusal j = none) (hn : j.needs = some m) :
    s.session = m := by
  unfold State.refusal at ha
  split at ha
  · rw [hn] at ha
    by_contra hm
    simp [hm] at ha
  · cases ha

theorem admitted_of_session {s : State} {j : Job} {m : Session} (ht : j.typed = true) (hn : j.needs = some m)
    (hs : s.session = m) : s.refusal j = none := by
  simp [State.refusal, ht, hn, hs]

theorem perform_idle {s : State} (j : Job) (h : s.idle) : (s.perform j).idle := by
  obtain ⟨r, -, hr⟩ | ⟨-, hf⟩ := perform_cases s j
  · rw [hr]
    exact h
  · rw [hf]
    exact ⟨rfl, rfl, rfl⟩

/-- The events an operation admitted in `s` emits: those of its list, from the samples of `s` (R48). -/
def State.emitted (s : State) (j : Job) : List Event := events j.script (s.samples (sampleCount j.script))

section Admitted

variable {s : State} {j : Job} (ha : s.refusal j = none)
include ha

theorem perform_trace : (s.perform j).trace = s.trace ++ s.emitted j := by
  rw [perform_admitted s j ha]
  rfl

theorem perform_session : (s.perform j).session = j.becomes.getD s.session := by
  rw [perform_admitted s j ha]

theorem perform_rst : (s.perform j).rst = ((resetVerbs (s.emitted j)).getLast?).getD s.rst := by
  rw [perform_admitted s j ha]
  rfl

theorem perform_dir : (s.perform j).dir = (((s.emitted j).filterMap Event.dirMode).getLast?).getD s.dir := by
  rw [perform_admitted s j ha]
  rfl

theorem perform_dout : (s.perform j).dout = ((outBits (s.emitted j)).getLast?).getD s.dout := by
  rw [perform_admitted s j ha]
  rfl

end Admitted

/-- A step at a free port touches at most the host's requests and the replies, or performs a request it admits. -/
theorem step_freePort {s t : State} (hf : s.inFlight = none) (h : step s = .next t) :
    (∃ host replies, t = { s with host := host, replies := replies }) ∨
    ∃ rest i, i.isRequest = true ∧ State.refusal { s with host := rest } (jobOf Config.engine i) = none ∧
      t = State.perform { s with host := rest } (jobOf Config.engine i) := by
  obtain ⟨j, hj, -⟩ | ⟨r, rest, i, -, -, hr, rfl⟩ | ⟨-, rest, reason, -, -, -, rfl⟩ | ⟨-, -, rfl⟩ := step_next h
  · simp [hf] at hj
  · obtain ⟨reason, -, hp⟩ | ⟨ha, -⟩ := perform_cases { s with host := rest } (jobOf Config.engine i)
    · exact .inl ⟨_, _, hp⟩
    · exact .inr ⟨rest, i, (read_run hr).1, ha, rfl⟩
  · exact .inl ⟨_, _, rfl⟩
  · exact .inl ⟨_, _, rfl⟩

theorem step_idle {s t : State} (hi : s.idle) (h : step s = .next t) : t.idle := by
  obtain ⟨_, _, rfl⟩ | ⟨rest, i, -, -, rfl⟩ := step_freePort hi.1 h
  · exact hi
  · exact perform_idle _ hi

/-- The next sampled bit is the first of those the statements number. -/
theorem sampled_eq_sampleAt (s : State) : s.sampled = sampleAt s 0 := by
  rw [sampled_eq, sampleAt, List.head?_eq_getElem?]
  rfl

/-! ### Every operation keeps the discipline of the lines -/

/-- An event that keeps the discipline leaves the lines as the event table says (R9). -/
theorem lineStep_eq {m : DataDir} {b : Bool} {e : Event} {l : DataDir × Bool} (h : lineStep (m, b) e = some l) :
    l = (e.dirMode.getD m, e.clkLevel.getD b) := by
  unfold lineStep at h
  split at h <;> simp_all [Event.dirMode, Event.clkLevel]

/-- The lines that a disciplined run of events is said to leave are those its latches hold (R23, R25). -/
theorem lineRun_latched {s : State} {tr : List Event} {l : DataDir × Bool} (h : lineRun (s.dir, s.clk) tr = some l) :
    ((latched s tr).dir, (latched s tr).clk) = l := by
  induction tr generalizing s with
  | nil => exact Option.some.inj h
  | cons e tr ih =>
    obtain ⟨l', hl, hrun⟩ := Option.bind_eq_some_iff.mp h
    rw [lineStep_eq hl, ← emit_dir_eq, ← emit_clk_eq] at hrun
    rw [latched_cons]
    exact ih hrun

/-- Every instruction but the receive cell by itself (log entry 9) leaves the lines at rest and keeps their discipline. -/
theorem lineRun_script (c : Config) {i : Instr} (hi : i ≠ .recvBit) {xs : List Bool}
    (hx : xs.length = sampleCount (jobOf c i).script) :
    lineRun (.drive, false) (events (jobOf c i).script xs) = some (.drive, false) := by
  have hsix (opcode : Opcode) : lineRun (.drive, false) (events (sixCells c opcode) xs) = some (.drive, false) := by
    rw [events_sixCells, lineRun_outCells]
  have hregout (hx : xs.length = c.nRegoutData) :
      lineRun (.drive, false) (events (regoutCells c) xs) = some (.drive, false) := by
    simp [events_regoutCells c xs hx, lineRun_append, lineRun_outCells, lineRun_inCells, lineRun, lineStep]
  cases i with
  | openCmd => simp [jobOf, openJob, events_openScript, lineRun_append, lineRun_outCells, lineRun, lineStep]
  | closeCmd => rfl
  | six opcode | sixFrame opcode => exact hsix opcode
  | regout | regoutFrame => exact hregout (by simpa [jobOf, regoutJob, frameJob] using hx)
  | flushFrame => simp [jobOf, frameJob, events_flushCells, lineRun_outCells]
  | keyFrame => simp [jobOf, frameJob, events_keyCells, lineRun_outCells]
  | sendBit b => rfl
  | recvBit => exact absurd rfl hi
  | _ => rfl

theorem isRequest_ne_recvBit {i : Instr} (h : i.isRequest = true) : i ≠ .recvBit := by
  rintro rfl
  cases h

/-- A request performed at resting lines leaves them at rest. -/
theorem perform_linesRest {s : State} {i : Instr} (hi : i ≠ .recvBit)
    (ha : s.refusal (jobOf Config.engine i) = none) (h : s.linesRest) : (s.perform (jobOf Config.engine i)).linesRest := by
  obtain ⟨hclk, hdir⟩ := h
  have hrun := lineRun_script Config.engine hi (samples_length s _)
  rw [← hdir, ← hclk] at hrun
  have hl := Prod.ext_iff.mp (lineRun_latched hrun)
  rw [perform_admitted s _ ha]
  exact ⟨hl.2.trans hclk, hl.1.trans hdir⟩

theorem perform_disciplined {s : State} {i : Instr} (hi : i ≠ .recvBit)
    (ha : s.refusal (jobOf Config.engine i) = none) (h : s.disciplined) : (s.perform (jobOf Config.engine i)).disciplined := by
  rw [State.disciplined, perform_trace ha, lineRun_append, h]
  exact lineRun_script Config.engine hi (samples_length s _)

/-! ### Whole clock pulses -/

/-- In a disciplined run that leaves the clock low, its fall follows each rise at once (R25, R94). -/
theorem lineRun_pulse {l : DataDir × Bool} {tr : List Event} {m : DataDir} {n : Nat}
    (h : lineRun l tr = some (m, false)) (hn : tr[n]? = some (.clk true)) : tr[n + 1]? = some (.clk false) := by
  induction tr generalizing l n with
  | nil => simp at hn
  | cons e tr ih =>
    obtain ⟨l', hl, hrun⟩ := Option.bind_eq_some_iff.mp h
    cases n with
    | succ n => exact ih hrun hn
    | zero =>
      obtain rfl : e = .clk true := by simpa using hn
      obtain rfl := lineStep_eq hl
      cases tr with
      | nil => cases hrun
      | cons e' tr =>
        obtain ⟨l'', hl', -⟩ := Option.bind_eq_some_iff.mp hrun
        cases e' with
        | clk b => cases b <;> simp_all [lineStep, Event.clkLevel]
        | _ => simp [lineStep, Event.clkLevel] at hl'

/-- A list's clock events stand where its clock actions do (R27). -/
theorem getElem?_events_clk (as : List Act) (xs : List Bool) (n : Nat) (b : Bool) :
    (events as xs)[n]? = some (.clk b) ↔ as[n]? = some (.emit (.clk b)) := by
  induction as generalizing xs n with
  | nil => simp [events]
  | cons a as ih =>
    cases n with
    | zero => cases a <;> cases xs <;> simp [events]
    | succ n => cases a <;> cases xs <;> simp [events, ih]

/-- In every instruction's list the clock's fall follows each rise at once (R94). -/
theorem script_pulse (c : Config) (i : Instr) (n : Nat) (hn : (jobOf c i).script[n]? = some (.emit (.clk true))) :
    (jobOf c i).script[n + 1]? = some (.emit (.clk false)) := by
  obtain ⟨m, xs, hrun⟩ : ∃ m xs, lineRun (m, false) (events (jobOf c i).script xs) = some (m, false) := by
    by_cases hi : i = .recvBit
    · subst hi
      exact ⟨.sense, [], rfl⟩
    · exact ⟨.drive, _, lineRun_script c hi (List.length_replicate (a := false))⟩
  rw [← getElem?_events_clk _ xs] at hn ⊢
  exact lineRun_pulse hrun hn

/-- After an action the clock is high only if the action raised it, or did not lower it. -/
theorem act_clk_high {s : State} {a : Act} (h : (s.act a).clk = true) :
    a = .emit (.clk true) ∨ s.clk = true ∧ a ≠ .emit (.clk false) := by
  cases a with
  | sample => exact .inr ⟨h, nofun⟩
  | emit e =>
    cases e with
    | clk b =>
      obtain rfl : b = true := h
      exact .inl rfl
    | _ => exact .inr ⟨h, nofun⟩

theorem act_clockInPulse {s : State} {j : Job} {a : Act} (h : ClockInPulse s) (hf : s.inFlight = some j)
    (hg : j.script[s.useq]? = some a) : ClockInPulse (s.act a) := by
  obtain ⟨⟨i, rfl⟩, hfall⟩ := h.2 j hf
  refine ⟨fun hn => by simp [hf] at hn, fun k hk => ?_⟩
  obtain rfl : jobOf Config.engine i = k := by simpa [hf] using hk
  refine ⟨⟨i, rfl⟩, fun hc => ?_⟩
  obtain rfl | ⟨hhigh, hne⟩ := act_clk_high hc
  · simpa using script_pulse Config.engine i s.useq hg
  · exact absurd (Option.some.inj (hg.symm.trans (hfall hhigh))) hne

theorem complete_clockInPulse {s : State} {j : Job} (h : ClockInPulse s) (hf : s.inFlight = some j)
    (hl : j.script.length ≤ s.useq) : ClockInPulse (s.complete j) := by
  obtain ⟨-, hfall⟩ := h.2 j hf
  refine ⟨fun _ => Bool.eq_false_iff.mpr fun hc => ?_, fun k hk => by simp at hk⟩
  have hnext := hfall hc
  rw [List.getElem?_eq_none hl] at hnext
  cases hnext

theorem accept_clockInPulse {s : State} (hc : s.clk = false) (i : Instr) :
    ClockInPulse (s.accept (jobOf Config.engine i)) := by
  refine ⟨fun hn => by simp at hn, fun k hk => ⟨⟨i, ?_⟩, fun hhigh => by simp [hc] at hhigh⟩⟩
  simpa using hk.symm

/-- At a free port a low clock is all there is to keep. -/
theorem clockInPulse_of_free {s : State} (hf : s.inFlight = none) (hc : s.clk = false) : ClockInPulse s :=
  ⟨fun _ => hc, fun j hj => by simp [hf] at hj⟩

theorem takeUp_clockInPulse {s : State} (hf : s.inFlight = none) (hc : s.clk = false) (i : Instr) :
    ClockInPulse (s.takeUp (jobOf Config.engine i)) := by
  unfold State.takeUp
  split
  · exact clockInPulse_of_free hf hc
  · exact accept_clockInPulse hc i

/-! ### The reset-line verbs -/

theorem resetVerbs_openScript (c : Config) (xs : List Bool) :
    resetVerbs (events (openScript c) xs) = [.low, .high, .released] := by
  simp only [events_openScript, resetVerbs_append, resetVerbs_outCells]
  rfl

theorem resetVerbs_sixCells (c : Config) (opcode : Opcode) (xs : List Bool) :
    resetVerbs (events (sixCells c opcode) xs) = [] := by
  rw [events_sixCells, resetVerbs_outCells]

theorem resetVerbs_regoutCells (c : Config) {xs : List Bool} (hx : xs.length = c.nRegoutData) :
    resetVerbs (events (regoutCells c) xs) = [] := by
  simp only [events_regoutCells c xs hx, resetVerbs_append, resetVerbs_outCells, resetVerbs_inCells]
  rfl

theorem resetVerbs_closeScript (c : Config) (xs : List Bool) :
    resetVerbs (events (closeScript c) xs) = [.low, .released] := by
  rw [events_closeScript]
  rfl

/-- Every admitted request adds the reset-line verbs of the session state it leaves (R110, R113, R115). -/
theorem perform_sessionHistory {s : State} {i : Instr} {n : Nat} (hq : i.isRequest = true)
    (ha : s.refusal (jobOf Config.engine i) = none) (h : s.sessionHistory n) :
    (s.perform (jobOf Config.engine i)).sessionHistory n ∨
      (s.perform (jobOf Config.engine i)).sessionHistory (n + 1) := by
  simp only [State.sessionHistory] at h ⊢
  rw [perform_trace ha, perform_session ha, resetVerbs_append, h]
  obtain rfl | ⟨opcode, rfl⟩ | rfl | rfl | ⟨typed, formula, hj⟩ := isRequest_cases hq
  · have hc := session_of_admitted ha rfl
    exact .inl (by simp [State.emitted, jobOf, openJob, resetVerbs_openScript, hc])
  · exact .inl (by simp [State.emitted, jobOf, sixJob, resetVerbs_sixCells])
  · exact .inl (by simp [State.emitted, jobOf, regoutJob, resetVerbs_regoutCells Config.engine (samples_length s 16)])
  · have hc := session_of_admitted ha rfl
    exact .inr (by
      simp [State.emitted, jobOf, closeJob, resetVerbs_closeScript, hc, List.replicate_succ', sessionVerbs])
  · exact .inl (by simp [State.emitted, hj, encoderJob, events, resetVerbs])

/-! ### The levels of the lines after a command -/

theorem dirModes_openScript (c : Config) (xs : List Bool) :
    (events (openScript c) xs).filterMap Event.dirMode = [] := by
  simp only [events_openScript, List.filterMap_append, dirModes_outCells]
  rfl

theorem dirModes_sixCells (c : Config) (opcode : Opcode) (xs : List Bool) :
    (events (sixCells c opcode) xs).filterMap Event.dirMode = [] := by
  rw [events_sixCells, dirModes_outCells]

theorem dirModes_regoutCells (c : Config) {xs : List Bool} (hx : xs.length = c.nRegoutData) :
    (events (regoutCells c) xs).filterMap Event.dirMode = [.sense, .drive] := by
  simp only [events_regoutCells c xs hx, List.filterMap_append, dirModes_outCells, dirModes_inCells]
  rfl

theorem outBits_openScript (c : Config) (xs : List Bool) :
    outBits (events (openScript c) xs) = msbBits c.key c.keyLen ++ List.replicate c.nFlush false := by
  simp only [events_openScript, outBits_append, outBits_outCells]
  exact congrArg (· ++ _) (List.append_nil _)

theorem outBits_sixCells (c : Config) (opcode : Opcode) (xs : List Bool) :
    outBits (events (sixCells c opcode) xs) = List.replicate c.nCtrl false ++ lsbBits opcode.toNat c.nOpcode := by
  rw [events_sixCells, outBits_outCells]

theorem outBits_regoutCells (c : Config) {xs : List Bool} (hx : xs.length = c.nRegoutData) :
    outBits (events (regoutCells c) xs) = lsbBits 1 c.nCtrl ++ List.replicate c.nRegoutDelay false := by
  simp only [events_regoutCells c xs hx, outBits_append, outBits_outCells, outBits_inCells]
  simp [outBits, Event.doutBit]

theorem lsbBits_succ (v n : Nat) : lsbBits v (n + 1) = lsbBits v n ++ [v.testBit n] := by
  simp [lsbBits, List.range_succ]

/-- The most significant bit of the opcode is sent last (R64). -/
theorem outBits_sixCells_getLast? (opcode : Opcode) (xs : List Bool) :
    (outBits (events (sixCells Config.engine opcode) xs)).getLast? = some (opcode.getLsbD 23) := by
  rw [outBits_sixCells, engine_nOpcode, lsbBits_succ _ 23, ← List.append_assoc, List.getLast?_concat]
  rfl

/-- A command whose last direction, if any, is `drive` leaves its last data bit driven (R24, decision D8). -/
theorem perform_dataLine {s : State} {j : Job} (ha : s.refusal j = none)
    (hd : (((s.emitted j).filterMap Event.dirMode).getLast?).getD s.dir = .drive) :
    (s.perform j).dataLine = some (((outBits (s.emitted j)).getLast?).getD s.dout) := by
  rw [State.dataLine, perform_dir ha, hd, perform_dout ha]

theorem resetHigh_of_rst_eq {s t : State} (c : Config) (h : t.rst = s.rst) : t.resetHigh c = s.resetHigh c := by
  simp [State.resetHigh, h]

theorem resetHigh_of_released {s : State} (c : Config) (h : s.rst = .released) : s.resetHigh c = c.releasedHigh := by
  simp [State.resetHigh, h]

end Sys2Proof.Machine

namespace Sys2Proof.Proofs

open Sys2Proof.Machine Sys2Proof.Claims

/-- Settles O46: a request performed at resting lines leaves them at rest, by the discipline of its list. -/
theorem everyStepLeavesTheLinesAtRest : Obligations.EveryStepLeavesTheLinesAtRest := by
  intro s t hi hl h
  refine ⟨step_idle hi h, ?_⟩
  obtain ⟨_, _, rfl⟩ | ⟨rest, i, hq, ha, rfl⟩ := step_freePort hi.1 h
  · exact hl
  · exact perform_linesRest (isRequest_ne_recvBit hq) ha hl

/-- Settles O47: of the requests, OPEN begins a session, CLOSE ends it, and no other moves the reset line. -/
theorem everyStepKeepsTheSessionHistory : Obligations.EveryStepKeepsTheSessionHistory := by
  intro s t n hi hn h
  refine ⟨step_idle hi h, ?_⟩
  obtain ⟨_, _, rfl⟩ | ⟨rest, i, hq, ha, rfl⟩ := step_freePort hi.1 h
  · exact .inl hn
  · exact perform_sessionHistory hq ha hn

/-- Settles O49: the list of every request keeps the discipline from resting lines to resting lines. -/
theorem commandsKeepTheLineDiscipline : Obligations.CommandsKeepTheLineDiscipline := by
  intro s t hi hd h
  refine ⟨step_idle hi h, ?_⟩
  obtain ⟨_, _, rfl⟩ | ⟨rest, i, hq, ha, rfl⟩ := step_freePort hi.1 h
  · exact hd
  · exact perform_disciplined (isRequest_ne_recvBit hq) ha hd

/-- Settles O53: by the cases of a small step; in every list the fall follows each rise at once (`script_pulse`). -/
theorem clockIsHighOnlyInsideAPulse : Obligations.ClockIsHighOnlyInsideAPulse := by
  intro s t h hs
  obtain ⟨j, a, hf, hg, rfl⟩ | ⟨j, hf, hl, rfl⟩ | ⟨-, rest, i, hf, -, -, rfl⟩ | ⟨-, rest, reason, hf, -, -, rfl⟩ |
    ⟨-, -, rfl⟩ := microStep_next hs
  · exact act_clockInPulse h hf hg
  · exact complete_clockInPulse h hf hl
  · exact takeUp_clockInPulse (s := { s with host := rest }) hf (h.1 hf) i
  · exact clockInPulse_of_free hf (h.1 hf)
  · exact h

/-- Settles O26: the last data bit and the last reset verb of each command's list are what it leaves on the lines. -/
theorem lineLevelsAfterEachCommand : Obligations.LineLevelsAfterEachCommand := by
  intro s t opcode hd
  refine ⟨fun hs h => ?_, fun hs h => ?_, fun hs h => ?_, fun hs h => ?_⟩
  all_goals obtain rfl := exec_next h
  · have ha := admitted_of_session (j := jobOf Config.engine .openCmd) rfl rfl hs
    refine ⟨?_, resetHigh_of_released _ ?_⟩
    · rw [perform_dataLine ha (by simp [State.emitted, jobOf, openJob, dirModes_openScript, hd])]
      simp [State.emitted, jobOf, openJob, outBits_openScript]
    · rw [perform_rst ha]
      simp [State.emitted, jobOf, openJob, resetVerbs_openScript]
  · have ha := admitted_of_session (j := jobOf Config.engine (.six opcode)) rfl rfl hs
    refine ⟨?_, resetHigh_of_rst_eq _ ?_⟩
    · rw [perform_dataLine ha (by simp [State.emitted, jobOf, sixJob, dirModes_sixCells, hd])]
      exact congrArg (fun b => some (b.getD s.dout)) (outBits_sixCells_getLast? opcode _)
    · rw [perform_rst ha]
      simp [State.emitted, jobOf, sixJob, resetVerbs_sixCells]
  · have ha := admitted_of_session (j := jobOf Config.engine .regout) rfl rfl hs
    have hx := samples_length s 16
    refine ⟨?_, resetHigh_of_rst_eq _ ?_⟩
    · rw [perform_dataLine ha (by simp [State.emitted, jobOf, regoutJob, dirModes_regoutCells Config.engine hx])]
      simp [State.emitted, jobOf, regoutJob, outBits_regoutCells Config.engine hx]
    · rw [perform_rst ha]
      simp [State.emitted, jobOf, regoutJob, resetVerbs_regoutCells Config.engine hx]
  · have ha := admitted_of_session (j := jobOf Config.engine .closeCmd) rfl rfl hs
    refine ⟨?_, resetHigh_of_released _ ?_⟩
    · rw [perform_dataLine ha hd, State.dataLine, hd]
      rfl
    · rw [perform_rst ha]
      rfl

/-- Settles O52: acceptance, one action, and the return, each one case of the small step. -/
theorem smallStepsEmitEventNumberUseq : Obligations.SmallStepsEmitEventNumberUseq := by
  refine ⟨fun s r rest i hf hh hr ha => ?_, fun s j a hf hg => ?_, fun s j hf hl => ?_⟩
  · have ha' : State.refusal { s with host := rest } (jobOf Config.engine i) = none := ha
    refine ⟨_, microStep_run hf hh hr, ?_⟩
    simp [State.takeUp, ha']
  · refine ⟨s.act a, by simp [microStep, hf, hg], by simp [hf], by simp, by simp, ?_⟩
    cases a with
    | emit e => rfl
    | sample =>
      rw [← sampled_eq_sampleAt]
      rfl
  · have hg : j.script[s.useq]? = none := List.getElem?_eq_none hl.ge
    exact ⟨s.complete j, by simp [microStep, hf, hg], rfl, rfl, rfl, _, rfl⟩

/-- Settles O1: each clause reads a field of the power-on state. -/
theorem powerOnIsClosedAtRestForEveryLatchLevel : Obligations.PowerOnIsClosedAtRestForEveryLatchLevel :=
  ⟨rfl, fun _ _ => ⟨rfl, rfl, rfl, rfl, rfl, rfl, ⟨rfl, rfl, rfl⟩, rfl⟩⟩

/-- Settles O50: the trace is empty and the port is free with the clock low. -/
theorem powerOnMeetsTheInvariants : Obligations.PowerOnMeetsTheInvariants := fun _ _ =>
  ⟨⟨rfl, rfl, rfl⟩, ⟨rfl, rfl⟩, rfl, ⟨rfl, rfl, rfl, rfl⟩, rfl, clockInPulse_of_free rfl rfl⟩

end Sys2Proof.Proofs
end

section
/-! PROOFS. The statements of 20_memory.md: a received value is the sum of its samples, and the trace and the replies
only grow. -/

namespace Sys2Proof.Machine

open Sys2Proof.Claims

/-! ### The value of sixteen samples -/

@[simp] theorem samplesOf_length (s : State) (n : Nat) : (samplesOf s n).length = n := by
  simp [samplesOf]

theorem samplesOf_getElem? (s : State) {n i : Nat} (h : i < n) : (samplesOf s n)[i]? = some (sampleAt s i) := by
  simp [samplesOf, h]

/-- The assembled bits are the sum of R42. -/
theorem assemble_eq_sum (bs : List Bool) :
    assemble bs = ∑ i ∈ Finset.range bs.length, (bs.getD i false).toNat * 2 ^ i := by
  induction bs with
  | nil => rfl
  | cons b bs ih =>
    have htail (i : Nat) : ((b :: bs).getD (i + 1) false).toNat * 2 ^ (i + 1) =
        2 * ((bs.getD i false).toNat * 2 ^ i) := by
      rw [List.getD_cons_succ, Nat.pow_succ']
      exact Nat.mul_left_comm ..
    simp only [assemble, List.length_cons, Finset.sum_range_succ', htail, ← Finset.mul_sum, ← ih]
    simp [Nat.add_comm]

/-- Sixteen bits fit the value: nothing is truncated. -/
theorem valueOf_toNat {bs : List Bool} (h : bs.length = 16) : (valueOf bs).toNat = assemble bs := by
  have hlt : assemble bs < 2 ^ 16 := h ▸ assemble_lt bs
  rw [valueOf, ← h, ← assemble_eq_sum, h, BitVec.toNat_ofNat, Nat.mod_eq_of_lt hlt]

/-- Bit `i` of the value is the `i`-th bit received. -/
theorem valueOf_getLsbD {bs : List Bool} (h : bs.length = 16) (i : Nat) :
    (valueOf bs).getLsbD i = (bs[i]?).getD false := by
  rw [BitVec.getLsbD, valueOf_toNat h, assemble_testBit]

/-! ### The trace and the replies grow -/

/-- `t` holds the trace and the replies of `s`, and after them whatever came since. -/
def GrownFrom (s t : State) : Prop := s.trace <+: t.trace ∧ s.replies <+: t.replies

theorem grownFrom_refl (s : State) : GrownFrom s s := ⟨List.prefix_rfl, List.prefix_rfl⟩

/-- An action appends one event and no reply (R8). -/
theorem trace_prefix_act (s : State) (a : Act) : s.trace <+: (s.act a).trace := by
  cases a <;> exact List.prefix_append _ _

/-- Events come by an action only, replies by a completion or a refusal only, each at the end. -/
theorem grownFrom_keptByOps (s : State) : KeptByOps (GrownFrom s) where
  act t a h := ⟨h.1.trans (trace_prefix_act t a), by simpa using h.2⟩
  accept _ _ h := h
  complete _ _ h := ⟨h.1, h.2.trans (List.prefix_append _ _)⟩
  refuse _ _ h := ⟨h.1, h.2.trans (List.prefix_append _ _)⟩
  taken _ _ h := h

theorem step_grownFrom {s t : State} (h : step s = .next t) : GrownFrom s t :=
  (grownFrom_keptByOps s).step (grownFrom_refl s) h

theorem microStep_grownFrom {s t : State} (h : microStep s = .next t) : GrownFrom s t :=
  (grownFrom_keptByOps s).microStep (grownFrom_refl s) h

/-- To have grown is to have appended. -/
theorem GrownFrom.exists_append {s t : State} (h : GrownFrom s t) :
    (∃ es, t.trace = s.trace ++ es) ∧ ∃ rs, t.replies = s.replies ++ rs := by
  obtain ⟨⟨es, hes⟩, rs, hrs⟩ := h
  exact ⟨⟨es, hes.symm⟩, rs, hrs.symm⟩

/-! ### The good end -/

/-- CLOSE from `Active`, the last command of a host that was refused nothing, comes to a good end (R113, R119). -/
theorem perform_closeJob_goodEnd {h : HostProgram} {s : State} (ha : s.session = .active) (hh : s.host = [])
    (hr : ∀ r, .refused r ∉ s.replies) (hn : h (s.replies ++ [.done]) = none) :
    (s.perform (closeJob Config.engine)).goodEnd h := by
  rw [perform_admitted s _ (admitted_of_session rfl rfl ha)]
  refine ⟨⟨⟨rfl, rfl, rfl⟩, hh, hn⟩, rfl, fun r hmem => ?_⟩
  obtain hold | hnew := List.mem_append.mp hmem
  · exact hr r hold
  · simp [closeJob] at hnew

end Sys2Proof.Machine

namespace Sys2Proof.Proofs

open Sys2Proof.Machine Sys2Proof.Claims

/-- Settles O19: the sixteen samples assemble to the sum of R42, which fits the value. -/
theorem receivedValueIsTheSumOfItsSamples : Obligations.ReceivedValueIsTheSumOfItsSamples := by
  intro s
  have hl := samplesOf_length s 16
  refine ⟨?_, fun i hi => ?_, (valueOf_toNat hl).symm⟩
  · rw [valueOf_toNat hl, assemble_eq_sum, hl]
    refine Finset.sum_congr rfl fun i hi => ?_
    rw [List.getD_eq_getElem?_getD, samplesOf_getElem? s (Finset.mem_range.mp hi)]
    rfl
  · rw [valueOf_getLsbD hl, samplesOf_getElem? s hi]
    rfl

/-- Settles O51: every shared operation grows the trace and the replies; a refusal among them stays there. -/
theorem traceAndRepliesOnlyGrow : Obligations.TraceAndRepliesOnlyGrow := by
  refine ⟨fun s t hs => (step_grownFrom hs).exists_append, fun s t hs => (microStep_grownFrom hs).exists_append,
    fun h s t r hr hs hend => ?_, fun h s ha hh hr hn => ?_⟩
  · obtain ⟨-, -, hnone⟩ := hend
    exact hnone r ((step_grownFrom hs).2.subset hr)
  · exact ⟨_, exec_eq .closeCmd s, perform_closeJob_goodEnd ha hh hr hn⟩

end Sys2Proof.Proofs
end

section
/-! PROOFS. The statements of 30_encoding.md: the decoder and the encoder undo each other, the reserved encodings and the
rows of the opcode table, the frames cell by cell, and what a host's requests put on the lines. -/

namespace Sys2Proof

/-! ### The operand types as bounds (R131) -/

theorem isReg_iff {r : Nat} : isReg r = true ↔ r < 16 := decide_eq_true_iff

theorem isHalf_iff {x : Nat} : isHalf x = true ↔ x < 65536 := decide_eq_true_iff

theorem isBitNumber_iff {b : Nat} : isBitNumber b = true ↔ b < 16 := decide_eq_true_iff

theorem isMode_iff {m : Nat} : isMode m = true ↔ m < 6 := decide_eq_true_iff

theorem isTableCall_iff {src srcMode dst dstMode : Nat} :
    isTableCall src srcMode dst dstMode = true ↔ src < 16 ∧ srcMode < 6 ∧ dst < 16 ∧ dstMode < 6 := by
  simp [isTableCall, isReg_iff, isMode_iff, and_assoc]

/-! ### The decoder, on the words of each format -/

theorem withWidth_of_lt (f : Format) {width bits : Nat} (read : Nat → Except DecodeError Instr) (h : bits < 2 ^ width) :
    withWidth width ⟨f, width, bits⟩ read = read bits := by
  simp [withWidth, h]

theorem decode_opcodeWord {w : Nat} (h : w < 2 ^ 24) : decode (opcodeWord w) = decodeOpcode w :=
  withWidth_of_lt .opcode decodeOpcode h

theorem decode_frame28 {w : Nat} (h : w < 2 ^ 28) : decode ⟨.frame28, 28, w⟩ = decodeFrame28 w :=
  withWidth_of_lt .frame28 decodeFrame28 h

/-- A payload word that decodes has its 24 bits and no more (R67). -/
theorem decode_opcode_ok {w : PortWord} {i : Instr} (hf : w.format = .opcode) (h : decode w = .ok i) :
    w = opcodeWord w.bits ∧ w.bits < 2 ^ 24 ∧ decodeOpcode w.bits = .ok i := by
  obtain ⟨f, width, bits⟩ := w
  obtain rfl : f = .opcode := hf
  simp only [decode, withWidth] at h
  split_ifs at h with hw hb
  obtain rfl : width = 24 := not_not.mp hw
  exact ⟨rfl, hb, h⟩

/-! ### The payload formats, told apart by their leading bits (R67) -/

section OpcodeFormats

variable {w : Nat}

theorem decodeOpcode_lit (h : field w 20 4 = 2) :
    decodeOpcode w = .ok (.loadImmediate (field w 4 16) (field w 0 4)) := by
  have h0 : w ≠ 0 := by rintro rfl; cases h
  simp [decodeOpcode, h0, h]

theorem decodeOpcode_store (h : field w 19 5 = 17) :
    decodeOpcode w = .ok (.store (field w 0 4) (2 * field w 4 15)) := by
  have h0 : w ≠ 0 := by rintro rfl; cases h
  have h1 : field w 20 4 ≠ 2 := by unfold field at h ⊢; omega
  simp [decodeOpcode, h0, h1, h]

theorem decodeOpcode_retrieve (h : field w 19 5 = 16) :
    decodeOpcode w = .ok (.retrieve (2 * field w 4 15) (field w 0 4)) := by
  have h0 : w ≠ 0 := by rintro rfl; cases h
  have h1 : field w 20 4 ≠ 2 := by unfold field at h ⊢; omega
  simp [decodeOpcode, h0, h1, h]

theorem decodeOpcode_jump (h : field w 16 8 = 4) : decodeOpcode w = .ok (.jump (field w 0 16)) := by
  have h0 : w ≠ 0 := by rintro rfl; cases h
  have h1 : field w 20 4 ≠ 2 := by unfold field at h ⊢; omega
  have h2 : field w 19 5 = 0 := by unfold field at h ⊢; omega
  simp [decodeOpcode, h0, h1, h2, h]

theorem decodeOpcode_bitSet (h : field w 16 8 = 168) :
    decodeOpcode w = .ok (.bitSet (2 * field w 1 12) (2 * field w 13 3 + field w 0 1)) := by
  have h0 : w ≠ 0 := by rintro rfl; cases h
  have h1 : field w 20 4 ≠ 2 := by unfold field at h ⊢; omega
  have h2 : field w 19 5 = 21 := by unfold field at h ⊢; omega
  simp [decodeOpcode, h0, h1, h2, h]

theorem decodeOpcode_table (h : field w 17 7 = 93) : decodeOpcode w = decodeTable w := by
  have h0 : w ≠ 0 := by rintro rfl; cases h
  have h1 : field w 20 4 ≠ 2 := by unfold field at h ⊢; omega
  have h2 : field w 19 5 = 23 := by unfold field at h ⊢; omega
  have h3 : field w 16 8 ≠ 4 ∧ field w 16 8 ≠ 168 := by unfold field at h ⊢; omega
  simp [decodeOpcode, h0, h1, h2, h3, h]

/-- An opcode that decodes is in one of the formats. -/
theorem decodeOpcode_ok {i : Instr} (h : decodeOpcode w = .ok i) :
    (w = 0 ∧ i = .nop) ∨
    (field w 20 4 = 2 ∧ i = .loadImmediate (field w 4 16) (field w 0 4)) ∨
    (field w 19 5 = 17 ∧ i = .store (field w 0 4) (2 * field w 4 15)) ∨
    (field w 19 5 = 16 ∧ i = .retrieve (2 * field w 4 15) (field w 0 4)) ∨
    (field w 16 8 = 4 ∧ i = .jump (field w 0 16)) ∨
    (field w 16 8 = 168 ∧ i = .bitSet (2 * field w 1 12) (2 * field w 13 3 + field w 0 1)) ∨
    (field w 17 7 = 93 ∧ decodeTable w = .ok i) := by
  unfold decodeOpcode at h
  split_ifs at h <;> simp_all

end OpcodeFormats

/-! ### The table operations -/

/-- The table operation that the selector bits `W,H,B` name; the other three values are reserved (R68). -/
def tableOp : Nat → Option (Nat → Nat → Nat → Nat → Instr)
  | 0 => some .tableReadLow
  | 2 => some .tableReadHigh
  | 4 => some .tableWriteLow
  | 6 => some .tableWriteHigh
  | 7 => some .tableWriteHighByte
  | _ => none

/-- The selector bits of a payload word, as one number. -/
def tableSelector (w : Nat) : Nat := w / 2 ^ 14 % 8

theorem field_tableSelector (w : Nat) :
    field w 16 1 = tableSelector w / 4 ∧ field w 15 1 = tableSelector w / 2 % 2 ∧ field w 14 1 = tableSelector w % 2 := by
  unfold field tableSelector
  omega

/-- A named selector makes the word a call, if both of its modes exist (R70). -/
theorem decodeTable_of_tableOp {w : Nat} {op : Nat → Nat → Nat → Nat → Instr} (h : tableOp (tableSelector w) = some op) :
    decodeTable w =
      if isMode (field w 4 3) && isMode (field w 11 3)
      then .ok (op (field w 0 4) (field w 4 3) (field w 7 4) (field w 11 3))
      else .error .reservedTableMode := by
  obtain ⟨hW, hH, hB⟩ := field_tableSelector w
  simp only [decodeTable, hW, hH, hB]
  generalize tableSelector w = sel at h
  unfold tableOp at h
  split at h <;> cases h <;> rfl

theorem tableOp_eq_none_iff {w : Nat} : tableOp (tableSelector w) = none ↔ tableSelector w ∈ [1, 3, 5] := by
  have hlt : tableSelector w < 8 := Nat.mod_lt _ (by decide)
  generalize tableSelector w = sel at hlt
  interval_cases sel <;> decide

theorem decodeTable_reserved {w : Nat} (h : tableSelector w ∈ [1, 3, 5]) :
    decodeTable w = .error .reservedTableSelector := by
  obtain ⟨hW, hH, hB⟩ := field_tableSelector w
  simp only [decodeTable, hW, hH, hB]
  generalize tableSelector w = sel at h
  fin_cases h <;> rfl

/-- A table opcode that decodes has a selector that names its operation, and two modes that exist. -/
theorem decodeTable_ok {w : Nat} {i : Instr} (h : decodeTable w = .ok i) :
    ∃ op, tableOp (tableSelector w) = some op ∧ isMode (field w 4 3) = true ∧ isMode (field w 11 3) = true ∧
      i = op (field w 0 4) (field w 4 3) (field w 7 4) (field w 11 3) := by
  cases hop : tableOp (tableSelector w) with
  | none => simp [decodeTable_reserved (tableOp_eq_none_iff.mp hop)] at h
  | some op =>
    rw [decodeTable_of_tableOp hop] at h
    split_ifs at h with hm
    obtain ⟨hs, hd⟩ := Bool.and_eq_true_iff.mp hm
    exact ⟨op, rfl, hs, hd, (Except.ok.inj h).symm⟩

/-- A table operation in format TBL, typed by its four operands and with no bit to drop (R67, R69). -/
theorem tableOp_encodes {sel : Nat} {op : Nat → Nat → Nat → Nat → Instr} (h : tableOp sel = some op)
    (src srcMode dst dstMode : Nat) :
    encode (op src srcMode dst dstMode) =
        opcodeWord (tblFields (sel / 4) (sel / 2 % 2) (sel % 2) src srcMode dst dstMode) ∧
      (op src srcMode dst dstMode).wf = isTableCall src srcMode dst dstMode ∧
      (op src srcMode dst dstMode).canonical = op src srcMode dst dstMode := by
  unfold tableOp at h
  split at h <;> cases h <;> exact ⟨rfl, rfl, rfl⟩

/-! ### The leading bits of a well-typed call's word (R67, R68) -/

theorem field_litFields {data reg : Nat} (hd : data < 65536) (hr : reg < 16) : field (litFields data reg) 20 4 = 2 := by
  unfold field litFields
  omega

theorem field_fileFields {s addr reg : Nat} (hs : s < 2) (ha : addr < 65536) (hr : reg < 16) :
    field (fileFields s addr reg) 19 5 = 16 + s := by
  unfold field fileFields
  omega

theorem field_gotoFields {addr : Nat} (ha : addr < 65536) : field (gotoFields addr) 16 8 = 4 := by
  unfold field gotoFields
  omega

theorem field_bsetFields {addr bit : Nat} (hb : bit < 16) : field (bsetFields addr bit) 16 8 = 168 := by
  have ha : field addr 1 12 < 2 ^ 12 := Nat.mod_lt _ (by decide)
  have hrow : bsetFields addr bit / 2 ^ 16 = 168 := by
    unfold bsetFields
    omega
  exact congrArg (· % 2 ^ 8) hrow

theorem field_tblFields {w h b src srcMode dst dstMode : Nat} (hw : w < 2) (hh : h < 2) (hb : b < 2)
    (hc : isTableCall src srcMode dst dstMode = true) :
    field (tblFields w h b src srcMode dst dstMode) 14 10 = 93 * 8 + w * 4 + h * 2 + b := by
  obtain ⟨hs, hm, hd, hn⟩ := isTableCall_iff.mp hc
  unfold field tblFields
  omega

/-! ### Decoding what was encoded -/

/-- A well-typed table call reads back from its word. -/
theorem decodeOpcode_tblFields {sel : Nat} {op : Nat → Nat → Nat → Nat → Instr} (h : tableOp sel = some op)
    (hsel : sel < 8)
    {src srcMode dst dstMode : Nat} (hc : isTableCall src srcMode dst dstMode = true) :
    decodeOpcode (tblFields (sel / 4) (sel / 2 % 2) (sel % 2) src srcMode dst dstMode) =
      .ok (op src srcMode dst dstMode) := by
  obtain ⟨hs, hm, hd, hn⟩ := isTableCall_iff.mp hc
  generalize hw : tblFields (sel / 4) (sel / 2 % 2) (sel % 2) src srcMode dst dstMode = w
  unfold tblFields at hw
  have hsw : tableSelector w = sel := by unfold tableSelector; omega
  have h0 : field w 0 4 = src := by unfold field; omega
  have h4 : field w 4 3 = srcMode := by unfold field; omega
  have h7 : field w 7 4 = dst := by unfold field; omega
  have h11 : field w 11 3 = dstMode := by unfold field; omega
  rw [decodeOpcode_table (by unfold field; omega), decodeTable_of_tableOp (hsw ▸ h), h0, h4, h7, h11]
  simp [isMode_iff.mpr hm, isMode_iff.mpr hn]

/-- The word of a well-typed call reads back as the call with its dropped address bits at 0 (R69). -/
theorem decodeOpcode_encode {i : Instr} (hi : (encode i).format = .opcode) (hwf : i.wf = true) :
    decodeOpcode (encode i).bits = .ok i.canonical := by
  cases i with
  | nop => rfl
  | loadImmediate data reg =>
    simp only [Instr.wf, Bool.and_eq_true, isHalf_iff, isReg_iff] at hwf
    show decodeOpcode (litFields data reg) = .ok (.loadImmediate data reg)
    rw [decodeOpcode_lit (field_litFields hwf.1 hwf.2)]
    congr 2 <;> unfold field litFields <;> omega
  | store reg addr =>
    simp only [Instr.wf, Bool.and_eq_true, isHalf_iff, isReg_iff] at hwf
    show decodeOpcode (fileFields 1 addr reg) = .ok (.store reg (2 * field addr 1 15))
    rw [decodeOpcode_store (field_fileFields (by decide) hwf.2 hwf.1)]
    congr 2 <;> unfold field fileFields <;> omega
  | retrieve addr reg =>
    simp only [Instr.wf, Bool.and_eq_true, isHalf_iff, isReg_iff] at hwf
    show decodeOpcode (fileFields 0 addr reg) = .ok (.retrieve (2 * field addr 1 15) reg)
    rw [decodeOpcode_retrieve (field_fileFields (by decide) hwf.1 hwf.2)]
    congr 2 <;> unfold field fileFields <;> omega
  | jump addr =>
    simp only [Instr.wf, isHalf_iff] at hwf
    show decodeOpcode (gotoFields addr) = .ok (.jump addr)
    rw [decodeOpcode_jump (field_gotoFields hwf)]
    congr 2; unfold field gotoFields; omega
  | bitSet addr bit =>
    simp only [Instr.wf, Bool.and_eq_true, isHalf_iff, isBitNumber_iff] at hwf
    show decodeOpcode (bsetFields addr bit) = .ok (.bitSet (2 * field addr 1 12) bit)
    rw [decodeOpcode_bitSet (field_bsetFields hwf.2)]
    have ha : field addr 1 12 < 2 ^ 12 := Nat.mod_lt _ (by decide)
    unfold bsetFields
    generalize field addr 1 12 = a at ha
    congr 2 <;> unfold field <;> omega
  | tableReadLow => exact decodeOpcode_tblFields (sel := 0) rfl (by decide) hwf
  | tableReadHigh => exact decodeOpcode_tblFields (sel := 2) rfl (by decide) hwf
  | tableWriteLow => exact decodeOpcode_tblFields (sel := 4) rfl (by decide) hwf
  | tableWriteHigh => exact decodeOpcode_tblFields (sel := 6) rfl (by decide) hwf
  | tableWriteHighByte => exact decodeOpcode_tblFields (sel := 7) rfl (by decide) hwf
  | _ => cases hi

open Laws in
/-- The facts of Laws/PerInstr.lean, of every instruction. -/
theorem encodingShape : ∀ i : Instr, EncodingShape.Statement i
  | .openCmd => EncodingShape.openCmd
  | .six opcode => EncodingShape.six opcode
  | .regout => EncodingShape.regout
  | .closeCmd => EncodingShape.closeCmd
  | .sixFrame opcode => EncodingShape.sixFrame opcode
  | .regoutFrame => EncodingShape.regoutFrame
  | .flushFrame => EncodingShape.flushFrame
  | .keyFrame => EncodingShape.keyFrame
  | .sendBit b => EncodingShape.sendBit b
  | .recvBit => EncodingShape.recvBit
  | .nop => EncodingShape.nop
  | .loadImmediate data reg => EncodingShape.loadImmediate data reg
  | .store reg addr => EncodingShape.store reg addr
  | .retrieve addr reg => EncodingShape.retrieve addr reg
  | .jump addr => EncodingShape.jump addr
  | .bitSet addr bit => EncodingShape.bitSet addr bit
  | .tableReadLow src srcMode dst dstMode => EncodingShape.tableReadLow src srcMode dst dstMode
  | .tableReadHigh src srcMode dst dstMode => EncodingShape.tableReadHigh src srcMode dst dstMode
  | .tableWriteLow src srcMode dst dstMode => EncodingShape.tableWriteLow src srcMode dst dstMode
  | .tableWriteHigh src srcMode dst dstMode => EncodingShape.tableWriteHigh src srcMode dst dstMode
  | .tableWriteHighByte src srcMode dst dstMode => EncodingShape.tableWriteHighByte src srcMode dst dstMode

/-- The word of a well-formed instruction fits its width (R75). -/
theorem encode_bits_lt {i : Instr} (hwf : i.wf = true) : (encode i).bits < 2 ^ (encode i).width :=
  have ⟨_, _, hlt⟩ := encodingShape i hwf
  hlt

/-- A well-formed call of the encoder is written as a payload word (R67). -/
theorem encode_call {i : Instr} (hi : (encode i).format = .opcode) (hwf : i.wf = true) :
    ∃ w < 2 ^ 24, encode i = opcodeWord w := by
  have hw : encode i = opcodeWord (encode i).bits := by
    cases i with
    | openCmd | six _ | regout | closeCmd | sixFrame _ | regoutFrame | flushFrame | keyFrame | sendBit _ | recvBit => cases hi
    | _ => rfl
  refine ⟨_, ?_, hw⟩
  have hlt := encode_bits_lt hwf
  rwa [show (encode i).width = 24 from congrArg PortWord.width hw] at hlt

theorem decode_encode {i : Instr} (hwf : i.wf = true) : decode (encode i) = .ok i.canonical := by
  by_cases hi : (encode i).format = .opcode
  · obtain ⟨w, hw, henc⟩ := encode_call hi hwf
    have hdec := decodeOpcode_encode hi hwf
    rw [henc] at hdec ⊢
    exact (decode_opcodeWord hw).trans hdec
  have hlt := encode_bits_lt hwf
  cases i with
  | six opcode =>
    refine (withWidth_of_lt .command decodeCommand hlt).trans ?_
    have hcmd : field (1 + 4 * opcode.toNat) 0 2 = 1 := by unfold field; omega
    have hop : field (1 + 4 * opcode.toNat) 2 24 = opcode.toNat := by
      have := opcode.isLt
      unfold field
      omega
    simp [encode, decodeCommand, hcmd, hop, Instr.canonical]
  | sixFrame opcode =>
    refine (decode_frame28 hlt).trans ?_
    have hctrl : field (16 * opcode.toNat) 0 4 = 0 := by unfold field; omega
    have hop : field (16 * opcode.toNat) 4 24 = opcode.toNat := by
      have := opcode.isLt
      unfold field
      omega
    simp [encode, sixFrameNumber, decodeFrame28, hctrl, hop, Instr.canonical]
  | keyFrame =>
    refine (withWidth_of_lt .frameKey (decodeKey Config.engine) hlt).trans ?_
    simp [encode, decodeKey, Instr.canonical]
  | sendBit b => cases b <;> rfl
  | openCmd | regout | closeCmd | regoutFrame | flushFrame | recvBit => rfl
  | _ => exact absurd rfl hi

/-! ### The dropped address bits (R69) -/

/-- An address without the bits dropped keeps what is left of it. -/
theorem field_two_mul_field (addr n : Nat) : field (2 * field addr 1 n) 1 n = field addr 1 n := by
  simp [field]

theorem canonical_canonical (i : Instr) : i.canonical.canonical = i.canonical := by
  cases i <;> simp only [Instr.canonical, field_two_mul_field]

/-- An even address that fits the field is not changed. -/
theorem two_mul_field_of_even {addr n : Nat} (he : addr % 2 = 0) (hlt : addr < 2 * 2 ^ n) : 2 * field addr 1 n = addr := by
  rw [field, Nat.pow_one, Nat.mod_eq_of_lt (by omega)]
  omega

/-! ### Encoding what was decoded -/

/-- A payload word that decodes is the word of the well-formed call it decodes to, which has no bit to drop (R67, R71). -/
theorem encode_of_decodeOpcode {w : Nat} {i : Instr} (hw : w < 2 ^ 24) (h : decodeOpcode w = .ok i) :
    encode i = opcodeWord w ∧ i.wf = true ∧ i.canonical = i := by
  obtain ⟨rfl, rfl⟩ | ⟨hf, rfl⟩ | ⟨hf, rfl⟩ | ⟨hf, rfl⟩ | ⟨hf, rfl⟩ | ⟨hf, rfl⟩ | ⟨hf, ht⟩ := decodeOpcode_ok h
  · exact ⟨rfl, rfl, rfl⟩
  · refine ⟨congrArg opcodeWord ?_, ?_, rfl⟩
    · unfold litFields field at *; omega
    · simp only [Instr.wf, Bool.and_eq_true, isHalf_iff, isReg_iff]
      unfold field
      omega
  · refine ⟨congrArg opcodeWord ?_, ?_, ?_⟩
    · unfold fileFields field at *; omega
    · simp only [Instr.wf, Bool.and_eq_true, isHalf_iff, isReg_iff]
      unfold field
      omega
    · simp [Instr.canonical, field]
  · refine ⟨congrArg opcodeWord ?_, ?_, ?_⟩
    · unfold fileFields field at *; omega
    · simp only [Instr.wf, Bool.and_eq_true, isHalf_iff, isReg_iff]
      unfold field
      omega
    · simp [Instr.canonical, field]
  · refine ⟨congrArg opcodeWord ?_, ?_, rfl⟩
    · unfold gotoFields field at *; omega
    · simp only [Instr.wf, isHalf_iff]
      unfold field
      omega
  · refine ⟨congrArg opcodeWord ?_, ?_, ?_⟩
    · unfold bsetFields field at *; omega
    · simp only [Instr.wf, Bool.and_eq_true, isHalf_iff, isBitNumber_iff]
      unfold field
      omega
    · simp [Instr.canonical, field]
  · obtain ⟨op, hop, hs, hd, rfl⟩ := decodeTable_ok ht
    obtain ⟨henc, hwf, hcan⟩ := tableOp_encodes hop (field w 0 4) (field w 4 3) (field w 7 4) (field w 11 3)
    refine ⟨henc.trans (congrArg opcodeWord ?_), hwf.trans ?_, hcan⟩
    · unfold tblFields tableSelector field at *; omega
    · exact isTableCall_iff.mpr ⟨Nat.mod_lt _ (by decide), isMode_iff.mp hs, Nat.mod_lt _ (by decide), isMode_iff.mp hd⟩

/-! ### The reserved encodings (R71, R72) -/

theorem decodeFrame28_reserved {w : Nat} (h : 2 ≤ field w 0 4) : decodeFrame28 w = .error .reservedControlCode := by
  unfold decodeFrame28
  split
  · omega
  · omega
  · rfl

theorem decodeFrame28_delay {w : Nat} (hctrl : field w 0 4 = 1) (hdelay : field w 4 8 ≠ 0) :
    decodeFrame28 w = .error .regoutDelayNotZero := by
  simp [decodeFrame28, hctrl, hdelay]

/-- A mode of 6 or 7 under a named selector (R70). -/
theorem decodeTable_mode {w : Nat} (hsel : tableSelector w ∉ [1, 3, 5]) (hm : 6 ≤ field w 4 3 ∨ 6 ≤ field w 11 3) :
    decodeTable w = .error .reservedTableMode := by
  obtain ⟨op, hop⟩ := Option.ne_none_iff_exists'.mp (mt tableOp_eq_none_iff.mp hsel)
  rw [decodeTable_of_tableOp hop, if_neg]
  rw [Bool.and_eq_true, isMode_iff, isMode_iff]
  omega

/-! ### The rows of the opcode table (R74) -/

/-- A mask of `n` ones from bit `k` up reads the field there. -/
theorem and_field_mask (w k n : Nat) : w &&& (2 ^ k * (2 ^ n - 1)) = 2 ^ k * field w k n := by
  rw [field, ← Nat.and_two_pow_sub_one_eq_mod]
  apply Nat.eq_of_testBit_eq
  intro i
  by_cases hi : k ≤ i <;> simp [Nat.testBit_two_pow_mul, Nat.testBit_div_two_pow, hi, Bool.and_comm]

/-- A row whose mask is a field's matches the words that hold the row's value in the field. -/
theorem matches_iff_field (mnemonic : String) (q w k n : Nat) :
    OpcodeRow.matches ⟨mnemonic, 2 ^ k * q, 2 ^ k * (2 ^ n - 1)⟩ w = true ↔ field w k n = q := by
  simp [OpcodeRow.matches, and_field_mask]

/-- Two rows that differ where both look share no word. -/
theorem not_matches_both {r r' : OpcodeRow} (h : r.pattern &&& r'.mask ≠ r'.pattern &&& r.mask) (w : Nat) :
    ¬ (r.matches w = true ∧ r'.matches w = true) := by
  rintro ⟨hr, hr'⟩
  refine h ?_
  rw [← eq_of_beq hr, ← eq_of_beq hr', Nat.and_assoc, Nat.and_assoc, Nat.and_comm r.mask]

theorem opcodeRows_disjoint :
    opcodeRows.Pairwise fun r r' => ∀ w : Nat, ¬ (r.matches w = true ∧ r'.matches w = true) := by
  have hrows : opcodeRows.Pairwise fun r r' => r.pattern &&& r'.mask ≠ r'.pattern &&& r.mask := by decide
  exact hrows.imp not_matches_both

/-- Where no two entries pass the test, one that passes is all the filter leaves. -/
theorem filter_eq_singleton {α : Type} {p : α → Bool} {l : List α} {a : α}
    (hl : l.Pairwise fun x y => ¬ (p x = true ∧ p y = true)) (ha : a ∈ l) (hp : p a = true) : l.filter p = [a] := by
  induction l with
  | nil => cases ha
  | cons b l ih =>
    obtain ⟨hb, hl⟩ := List.pairwise_cons.mp hl
    obtain rfl | ha := List.mem_cons.mp ha
    · rw [List.filter_cons_of_pos hp, List.filter_eq_nil_iff.mpr fun x hx hpx => hb x hx ⟨hp, hpx⟩]
    · rw [List.filter_cons_of_neg fun hpb => hb a ha ⟨hpb, hp⟩, ih hl ha]

/-- The word of a well-typed call matches the row of its own mnemonic. -/
theorem exists_row {i : Instr} (hi : (encode i).format = .opcode) (hwf : i.wf = true) :
    ∃ r ∈ opcodeRows, r.matches (encode i).bits = true ∧ r.mnemonic = i.mnemonic := by
  have hrow (k n q : Nat) (hr : (⟨i.mnemonic, 2 ^ k * q, 2 ^ k * (2 ^ n - 1)⟩ : OpcodeRow) ∈ opcodeRows)
      (hf : field (encode i).bits k n = q) :
      ∃ r ∈ opcodeRows, r.matches (encode i).bits = true ∧ r.mnemonic = i.mnemonic :=
    ⟨_, hr, (matches_iff_field ..).mpr hf, rfl⟩
  cases i with
  | openCmd | six _ | regout | closeCmd | sixFrame _ | regoutFrame | flushFrame | keyFrame | sendBit _ | recvBit => cases hi
  | nop => exact hrow 0 24 0 (by decide) rfl
  | loadImmediate data reg =>
    simp only [Instr.wf, Bool.and_eq_true, isHalf_iff, isReg_iff] at hwf
    exact hrow 20 4 2 (by simp [opcodeRows, Instr.mnemonic]) (field_litFields hwf.1 hwf.2)
  | store reg addr =>
    simp only [Instr.wf, Bool.and_eq_true, isHalf_iff, isReg_iff] at hwf
    exact hrow 19 5 17 (by simp [opcodeRows, Instr.mnemonic]) (field_fileFields (by decide) hwf.2 hwf.1)
  | retrieve addr reg =>
    simp only [Instr.wf, Bool.and_eq_true, isHalf_iff, isReg_iff] at hwf
    exact hrow 19 5 16 (by simp [opcodeRows, Instr.mnemonic]) (field_fileFields (by decide) hwf.1 hwf.2)
  | jump addr =>
    exact hrow 16 8 4 (by simp [opcodeRows, Instr.mnemonic]) (field_gotoFields (isHalf_iff.mp hwf))
  | bitSet addr bit =>
    simp only [Instr.wf, Bool.and_eq_true, isHalf_iff, isBitNumber_iff] at hwf
    exact hrow 16 8 168 (by simp [opcodeRows, Instr.mnemonic]) (field_bsetFields hwf.2)
  | tableReadLow =>
    exact hrow 14 10 744 (by simp [opcodeRows, Instr.mnemonic])
      (field_tblFields (by decide) (by decide) (by decide) hwf)
  | tableReadHigh =>
    exact hrow 14 10 746 (by simp [opcodeRows, Instr.mnemonic])
      (field_tblFields (by decide) (by decide) (by decide) hwf)
  | tableWriteLow =>
    exact hrow 14 10 748 (by simp [opcodeRows, Instr.mnemonic])
      (field_tblFields (by decide) (by decide) (by decide) hwf)
  | tableWriteHigh =>
    exact hrow 14 10 750 (by simp [opcodeRows, Instr.mnemonic])
      (field_tblFields (by decide) (by decide) (by decide) hwf)
  | tableWriteHighByte =>
    exact hrow 14 10 751 (by simp [opcodeRows, Instr.mnemonic])
      (field_tblFields (by decide) (by decide) (by decide) hwf)

end Sys2Proof

namespace Sys2Proof.Machine

open Sys2Proof.Claims

/-! ### The frames, performed -/

/-- A frame of outbound cells, performed: its cells are sent, the last bit stays on `DOUT`, and an empty frame touches no
line. -/
theorem perform_sendFrame (c : Config) (s : State) (bits : List Bool) :
    s.perform (frameJob (bits.flatMap (sendBit c)) .nothing) =
      { returned s .done with
        dout := (bits.getLast?).getD s.dout
        clk := if bits = [] then s.clk else false
        trace := s.trace ++ outCells c bits } := by
  rw [perform_admitted s _ (refusal_none s _ rfl rfl)]
  simp only [frameJob, sampleCount_sends, events_sends]
  cases bits with
  | nil => simp [latched, returned, outCells, resetVerbs, outBits]
  | cons b bits =>
    rw [latched_outCells _ _ _ (List.cons_ne_nil b bits)]
    simp [returned, outCells]

/-- The bits of a SIX frame, as its cells carry them (R64). -/
theorem sixBits_eq (opcode : Opcode) : sixBits opcode = List.replicate 4 false ++ lsbBits opcode.toNat 24 := rfl

theorem sixCells_engine (opcode : Opcode) :
    sixCells Config.engine opcode = (sixBits opcode).flatMap (sendBit Config.engine) := by
  rw [sixCells_eq, engine_nCtrl, engine_nOpcode, sixBits_eq]

theorem flushCells_engine :
    flushCells Config.engine = [false, false, false, false, false].flatMap (sendBit Config.engine) :=
  sendZeros_eq Config.engine 5

theorem getLast?_sixBits (opcode : Opcode) : (sixBits opcode).getLast? = some (opcode.getLsbD 23) := by
  rw [sixBits_eq, lsbBits_succ, ← List.append_assoc, List.getLast?_concat]
  rfl

/-- Frame bit `k` of a SIX frame is bit `k` of its number (R7, decision D21). -/
theorem getElem?_sixBits (opcode : Opcode) {k : Nat} (hk : k < 28) :
    (sixBits opcode)[k]? = some ((sixFrameNumber opcode).testBit k) := by
  rw [sixBits_eq, ← range_testBit_sixFrameNumber, List.getElem?_map, List.getElem?_range hk]
  rfl

/-- The key's least significant bit is sent last (R62). -/
theorem getLast?_msbBits (v n : Nat) : (msbBits v (n + 1)).getLast? = some (v.testBit 0) := by
  simp [msbBits, List.range_succ]

/-- What the latches make of the REGOUT frame (R65). -/
theorem latched_regoutTrace (c : Config) (s : State) {bs : List Bool} (h : bs ≠ []) :
    latched s (regoutTrace c bs) = { s with dir := .drive, dout := false, clk := false } := by
  have hdir (m : DataDir) (t : State) : latched t [.dir m] = { t with dir := m } := rfl
  simp only [regoutTrace, outCells, inCells, latched_append, latched_inCells c _ bs h, hdir]
  rw [latched_outCells c s regoutBits (by simp [regoutBits])]
  rfl

theorem events_regoutCells_eq_regoutTrace {bs : List Bool} (h : bs.length = 16) :
    events (regoutCells Config.engine) bs = regoutTrace Config.engine bs :=
  events_regoutCells_engine bs h

theorem samples_eq_samplesOf (s : State) (n : Nat) : s.samples n = samplesOf s n := samples_eq s n

theorem valueOf_eq {bs : List Bool} (h : bs.length = 16) : valueOf bs = BitVec.ofNat 16 (assemble bs) := by
  apply BitVec.eq_of_toNat_eq
  rw [valueOf_toNat h, BitVec.toNat_ofNat, Nat.mod_eq_of_lt (h ▸ assemble_lt bs)]

/-! ### The requests of a host -/

theorem emitted_openJob (s : State) : s.emitted (openJob Config.engine) = openTrace Config.engine :=
  events_openScript _ _

theorem emitted_sixJob (s : State) (opcode : Opcode) :
    s.emitted (sixJob Config.engine opcode) = outCells Config.engine (sixBits opcode) :=
  events_sixCells _ _ _

theorem emitted_regoutJob (s : State) :
    s.emitted (regoutJob Config.engine) = regoutTrace Config.engine (s.samples 16) := by
  simp only [State.emitted, regoutJob, sampleCount_regoutCells, engine_nRegoutData]
  exact events_regoutCells_eq_regoutTrace (samples_length s 16)

theorem emitted_closeJob (s : State) : s.emitted (closeJob Config.engine) = closeTrace Config.engine :=
  events_closeScript _ _

theorem take_outBits_regoutTrace (c : Config) (bs : List Bool) :
    (outBits (regoutTrace c bs)).take 4 = [true, false, false, false] := by
  simp only [regoutTrace, outCells, outBits_append, outBits_outCells]
  rfl

/-! ### The calls of the encoder -/

/-- The encoder's formula for a well-formed call is the call's word in the field tables (R130, R67). -/
theorem jobOf_call {i : Instr} (hi : isEncoderCall i) (hwf : i.wf = true) :
    jobOf Config.engine i = encoderJob true (encode i).bits := by
  have htable {src srcMode dst dstMode : Nat} (w h b : Nat) (hc : isTableCall src srcMode dst dstMode = true) :
      (2 ^ 14 * (93 * 8 + w * 4 + h * 2 + b)) ||| tableOperands src srcMode dst dstMode =
        tblFields w h b src srcMode dst dstMode := by
    obtain ⟨hs, hm, hd, hn⟩ := isTableCall_iff.mp hc
    exact tableFormula_eq w h b hs hm hd hn
  cases i with
  | openCmd | six _ | regout | closeCmd | sixFrame _ | regoutFrame | flushFrame | keyFrame | sendBit _ | recvBit => cases hi
  | nop => rfl
  | loadImmediate data reg =>
    obtain ⟨hd, hr⟩ := Bool.and_eq_true_iff.mp hwf
    exact congrArg₂ encoderJob hwf (loadImmediateFormula_eq (isHalf_iff.mp hd) (isReg_iff.mp hr))
  | store reg addr =>
    obtain ⟨hr, ha⟩ := Bool.and_eq_true_iff.mp hwf
    exact congrArg₂ encoderJob hwf (storeFormula_eq (isReg_iff.mp hr) (isHalf_iff.mp ha))
  | retrieve addr reg =>
    obtain ⟨ha, hr⟩ := Bool.and_eq_true_iff.mp hwf
    exact congrArg₂ encoderJob hwf (retrieveFormula_eq (isHalf_iff.mp ha) (isReg_iff.mp hr))
  | jump addr => exact congrArg₂ encoderJob hwf (jumpFormula_eq (isHalf_iff.mp hwf))
  | bitSet addr bit =>
    obtain ⟨-, hb⟩ := Bool.and_eq_true_iff.mp hwf
    exact congrArg₂ encoderJob hwf (bitSetFormula_eq (isBitNumber_iff.mp hb))
  | tableReadLow => exact congrArg₂ encoderJob hwf (htable 0 0 0 hwf)
  | tableReadHigh => exact congrArg₂ encoderJob hwf (htable 0 1 0 hwf)
  | tableWriteLow => exact congrArg₂ encoderJob hwf (htable 1 0 0 hwf)
  | tableWriteHigh => exact congrArg₂ encoderJob hwf (htable 1 1 0 hwf)
  | tableWriteHighByte => exact congrArg₂ encoderJob hwf (htable 1 1 1 hwf)

/-- A well-typed call only returns its opcode (R130). -/
theorem perform_encoderJob (s : State) (formula : Nat) :
    s.perform (encoderJob true formula) = returned s (.opcode (toOpcode formula)) := rfl

/-! ### A word that is no instruction, at the port -/

theorem read_error {w : PortWord} {e : DecodeError} (h : decode w = .error e) :
    (Request.word w).read = if e = .reservedTableMode then .refuse .operandOutOfRange else .stop (.undecodable e) := by
  simp [Request.read, h]

theorem step_refuse {s : State} {r : Request} {rest : List Request} {reason : RefusalReason} (hf : s.inFlight = none)
    (hh : s.host = r :: rest) (hr : r.read = .refuse reason) :
    step s = .next (turnedAway { s with host := rest } reason) := by
  simp only [step, hf, fetch, hh, hr]
  rfl

end Sys2Proof.Machine

namespace Sys2Proof.Proofs

open Sys2Proof.Machine Sys2Proof.Claims

/-- Settles O36: the address bits dropped are those of the canonical form, and an even address in range has none. -/
theorem decodeOfEncodeIsTheInstruction : Obligations.DecodeOfEncodeIsTheInstruction := by
  intro i hwf
  refine ⟨decode_encode hwf, canonical_canonical i, ?_, ?_, ?_, ?_⟩
  · rintro reg addr rfl he
    simp only [Instr.wf, Bool.and_eq_true, isHalf_iff] at hwf
    rw [Instr.canonical, two_mul_field_of_even he (by omega)]
  · rintro addr reg rfl he
    simp only [Instr.wf, Bool.and_eq_true, isHalf_iff] at hwf
    rw [Instr.canonical, two_mul_field_of_even he (by omega)]
  · rintro addr bit rfl he hlt
    rw [Instr.canonical, two_mul_field_of_even he hlt]
  · intro hstore hretrieve hbitSet
    cases i with
    | store reg addr => exact absurd rfl (hstore reg addr)
    | retrieve addr reg => exact absurd rfl (hretrieve addr reg)
    | bitSet addr bit => exact absurd rfl (hbitSet addr bit)
    | _ => rfl

/-- Settles O37: format by format, the fields read from the word make it up again. -/
theorem decodedOpcodesEncodeBack : Obligations.DecodedOpcodesEncodeBack := by
  intro w i hf h
  obtain ⟨hw, hlt, hdec⟩ := decode_opcode_ok hf h
  rw [hw]
  exact encode_of_decodeOpcode hlt hdec

/-- Settles O58: of what a host can request, only the four commands emit events, each in its session state. -/
theorem hostRequestsPutOnlyTheCommandsOnTheLines : Obligations.HostRequestsPutOnlyTheCommandsOnTheLines := by
  intro s t hf h
  obtain ⟨_, _, rfl⟩ | ⟨rest, i, hq, ha, rfl⟩ := step_freePort hf h
  · exact .inl ⟨rfl, rfl⟩
  rw [perform_trace ha, perform_session ha]
  obtain rfl | ⟨opcode, rfl⟩ | rfl | rfl | ⟨typed, formula, hj⟩ := isRequest_cases hq
  · have hs := session_of_admitted ha rfl
    exact .inr (.inl ⟨hs, rfl, congrArg _ (emitted_openJob _)⟩)
  · have hs := session_of_admitted ha rfl
    refine .inr (.inr (.inl ⟨hs, hs, _, congrArg _ (emitted_sixJob _ opcode), .inl ⟨⟨opcode, rfl⟩, ?_⟩⟩))
    rw [outCells, outBits_outCells]
    rfl
  · have hs := session_of_admitted ha rfl
    exact .inr (.inr (.inl ⟨hs, hs, _, congrArg _ (emitted_regoutJob _),
      .inr ⟨⟨_, samples_length _ 16, rfl⟩, take_outBits_regoutTrace _ _⟩⟩))
  · have hs := session_of_admitted ha rfl
    exact .inr (.inr (.inr ⟨hs, rfl, congrArg _ (emitted_closeJob _)⟩))
  · refine .inl ⟨?_, ?_⟩ <;> simp [hj, encoderJob, State.emitted, events]

/-- Settles O11: the cells carry the key's bits, most significant first; an empty key sends none. -/
theorem keyFrameSendsTheKeyMostSignificantBitFirst : Obligations.KeyFrameSendsTheKeyMostSignificantBitFirst := by
  intro s
  rw [exec_eq, jobOf, keyCells, sendBitsMsb_eq, perform_sendFrame]
  cases Config.engine.keyLen with
  | zero => rfl
  | succ n =>
    have hne : msbBits Config.engine.key (n + 1) ≠ [] := by simp [msbBits_succ]
    simp only [getLast?_msbBits, hne]
    rfl

/-- Settles O12: five zero cells leave a zero on `DOUT` and the clock low. -/
theorem flushFrameSendsFiveZeros : Obligations.FlushFrameSendsFiveZeros := by
  intro s
  rw [exec_eq, jobOf, flushCells_engine, perform_sendFrame]
  rfl

/-- Settles O13: the cells carry `sixBits`, which are the bits of the frame's number. -/
theorem sixFrameSendsControlCodeThenOpcodeBits : Obligations.SixFrameSendsControlCodeThenOpcodeBits := by
  intro opcode s
  refine ⟨?_, ?_, fun k hk => ?_, fun i hi => ?_, ?_, fun k hk => getElem?_sixBits opcode hk⟩
  · rw [exec_eq, jobOf, sixCells_engine, perform_sendFrame, getLast?_sixBits]
    rfl
  · simp [sixBits_eq]
  · rw [sixBits_eq, List.getElem?_append_left (by simpa using hk), List.getElem?_replicate_of_lt hk]
  · simp [sixBits, hi, Nat.add_comm]
  · rw [Nat.shiftLeft_eq, Nat.mul_comm]
    rfl

/-- Settles O14: the frame's trace with its sixteen samples, the latches it leaves, and the value they assemble to. -/
theorem regoutFrameSendsTwelveCellsAndReceivesSixteen : Obligations.RegoutFrameSendsTwelveCellsAndReceivesSixteen := by
  intro s
  have hl := samplesOf_length s 16
  have hne : samplesOf s 16 ≠ [] := List.ne_nil_of_length_pos (by simp)
  rw [exec_eq, jobOf, perform_admitted s _ (refusal_none s _ rfl rfl)]
  simp only [frameJob, sampleCount_regoutCells, engine_nRegoutData, samples_eq_samplesOf,
    events_regoutCells_eq_regoutTrace hl, latched_regoutTrace _ s hne, valueOf_eq hl]
  rfl

/-- Settles O35: the formula is the call's word, which fits 24 bits and reads back. -/
theorem encoderResultIsTheTablesWord : Obligations.EncoderResultIsTheTablesWord := by
  intro i s hi hwf
  obtain ⟨w, hw, henc⟩ := encode_call hi hwf
  have hn : (toOpcode w).toNat = w := Nat.mod_eq_of_lt hw
  refine ⟨toOpcode w, ?_, ?_, ?_⟩
  · rw [exec_eq, jobOf_call hi hwf, henc]
    exact congrArg _ (perform_encoderJob s w)
  · rw [hn, henc]
    rfl
  · rw [hn, ← decode_encode hwf, henc]
    rfl

/-- Settles O38: the control code, the delay bits, the selector and the modes each decide; the port reads the error. -/
theorem reservedEncodingsAreRejectedByName : Obligations.ReservedEncodingsAreRejectedByName := by
  have htable {b : Nat} (hb : b < 2 ^ 24) (hf : b / 2 ^ 17 = 93) : decode ⟨.opcode, 24, b⟩ = decodeTable b :=
    (decode_opcodeWord hb).trans (decodeOpcode_table (congrArg (· % 2 ^ 7) hf))
  refine ⟨fun b hb hctrl => ?_, fun b hb hctrl hdelay => ?_, fun b hb hf hsel => ?_, fun b hb hf hsel hm => ?_,
    fun s w rest e hf hh he => ⟨fun hne => ?_, fun heq => ?_⟩⟩
  · rw [decode_frame28 hb, decodeFrame28_reserved]
    simpa [field] using hctrl
  · rw [decode_frame28 hb, decodeFrame28_delay] <;> simpa [field]
  · exact (htable hb hf).trans (decodeTable_reserved hsel)
  · exact (htable hb hf).trans (decodeTable_mode hsel hm)
  · exact step_stop hf hh ((read_error he).trans (if_neg hne))
  · exact step_refuse hf hh ((read_error he).trans (if_pos heq))

/-- Settles O39: the rows are disjoint, so the row of the call's own mnemonic is the only one its word matches. -/
theorem opcodeRowsAreDisjointAndComplete : Obligations.OpcodeRowsAreDisjointAndComplete := by
  refine ⟨opcodeRows_disjoint, fun i hi hwf => ?_⟩
  obtain ⟨r, hr, hm, hname⟩ := exists_row hi hwf
  rw [filter_eq_singleton (opcodeRows_disjoint.imp fun h => h _) hr hm, List.map_singleton, hname]

/-- Settles O40: the decoder reads each word. -/
theorem writtenOutWordsDecodeToTheirInstructions : Obligations.WrittenOutWordsDecodeToTheirInstructions :=
  ⟨rfl, rfl, rfl, rfl, rfl, rfl, rfl, rfl, rfl, rfl, rfl, rfl, rfl⟩

end Sys2Proof.Proofs
end

section
/-! PROOFS. The statements of 40_bit_transfer.md: the two bit cells performed, the multi-bit helpers as sequences of
cells, the delays on both sides of every clock pulse, and that every instruction answers once. -/

namespace Sys2Proof.Machine

open Sys2Proof.Claims

/-! ### The bit cells, performed -/

/-- A send cell by itself is a frame of one bit (R98). -/
theorem sendBitJob_eq (c : Config) (b : Bool) : sendBitJob c b = frameJob ([b].flatMap (sendBit c)) .nothing := rfl

/-- A receive cell, performed: it returns the bit it sampled, and of the latches only the clock moves (R99). -/
theorem perform_recvBitJob (c : Config) (s : State) :
    s.perform (recvBitJob c) =
      { returned s (.bit (BitVec.ofBool (sampleAt s 0))) with
        clk := false
        trace := s.trace ++ inCell c (sampleAt s 0)
        targetBits := s.targetBits.drop 1
        draws := s.draws + 1 } := by
  have hsamples : s.samples (sampleCount (recvBitJob c).script) = [sampleAt s 0] := samples_eq_samplesOf s 1
  have hbit (b : Bool) : BitVec.ofNat 1 (assemble [b]) = BitVec.ofBool b := by cases b <;> rfl
  rw [perform_admitted s _ (refusal_none s _ rfl rfl), hsamples, hbit]
  rfl

/-! ### The multi-bit helpers -/

section Helpers

variable (c : Config)

theorem recvBits_eq (n : Nat) : recvBits c n = (List.replicate n ()).flatMap fun _ => recvBit c := by
  induction n with
  | zero => rfl
  | succ n ih => rw [recvBits, ih, List.replicate_succ, List.flatMap_cons]

/-- Five actions an outbound cell (R98). -/
theorem length_sends (bits : List Bool) : (bits.flatMap (sendBit c)).length = 5 * bits.length := by
  rw [← events_length _ [], events_sends, length_outCells]

/-- Five actions an inbound cell (R99). -/
theorem length_recvBits (n : Nat) : (recvBits c n).length = 5 * n := by
  induction n with
  | zero => rfl
  | succ n ih => rw [recvBits, List.length_append, ih, Nat.mul_succ, Nat.add_comm]; rfl

end Helpers

/-- The bits below `n` are those of the remainder by `2 ^ n`. -/
theorem lsbBits_mod (v n : Nat) : lsbBits (v % 2 ^ n) n = lsbBits v n := by
  refine List.map_congr_left fun i hi => ?_
  simp [Nat.testBit_mod_two_pow, List.mem_range.mp hi]

theorem msbBits_eq_reverse (v n : Nat) : msbBits v n = (lsbBits v n).reverse := by
  induction n with
  | zero => rfl
  | succ n ih => rw [msbBits_succ, ih, lsbBits_succ, List.reverse_concat]

theorem msbBits_mod (v n : Nat) : msbBits (v % 2 ^ n) n = msbBits v n := by
  rw [msbBits_eq_reverse, lsbBits_mod, ← msbBits_eq_reverse]

/-! ### The delays around a clock pulse -/

/-- Where the list raises the clock, the delay `P` stands before, and the fall and the delay `P` after (R94, R101). -/
def PulsesFramed (c : Config) (as : List Act) : Prop :=
  ∀ n : Nat, as[n]? = some (.emit (.clk true)) →
    1 ≤ n ∧ as[n - 1]? = some (.emit (.wait c.p)) ∧
    as[n + 1]? = some (.emit (.clk false)) ∧ as[n + 2]? = some (.emit (.wait c.p))

namespace PulsesFramed

variable {c : Config}

/-- A list that never raises the clock has no pulse to frame. -/
theorem of_not_mem {as : List Act} (h : .emit (.clk true) ∉ as) : PulsesFramed c as := fun _ hn =>
  absurd (List.mem_of_getElem? hn) h

/-- A pulse with its delays lies in one of two lists put together, never across the seam. -/
theorem append {as bs : List Act} (ha : PulsesFramed c as) (hb : PulsesFramed c bs) : PulsesFramed c (as ++ bs) := by
  intro n hn
  obtain hlt | hge := Nat.lt_or_ge n as.length
  · rw [List.getElem?_append_left hlt] at hn
    obtain ⟨hpos, hbefore, hfall, hafter⟩ := ha n hn
    have hkept {k : Nat} {a : Act} (h : as[k]? = some a) : (as ++ bs)[k]? = some a :=
      (List.getElem?_append_left (List.getElem?_eq_some_iff.mp h).1).trans h
    exact ⟨hpos, hkept hbefore, hkept hfall, hkept hafter⟩
  · obtain ⟨m, rfl⟩ := Nat.exists_eq_add_of_le hge
    have hshift (k : Nat) : (as ++ bs)[as.length + k]? = bs[k]? := by
      rw [List.getElem?_append_right (Nat.le_add_right ..), Nat.add_sub_cancel_left]
    rw [hshift] at hn
    obtain ⟨hpos, hbefore, hfall, hafter⟩ := hb m hn
    refine ⟨by omega, ?_, (hshift (m + 1)).trans hfall, (hshift (m + 2)).trans hafter⟩
    rw [Nat.add_sub_assoc hpos, hshift, hbefore]

/-- The shape the two cells share: an action on the data line, then the pulse between its delays (R98, R99). -/
theorem cell {a : Act} (h : a ≠ .emit (.clk true)) :
    PulsesFramed c (a :: (delay c.p ++ pulseClock ++ delay c.p)) := by
  intro n hn
  match n with
  | 0 => exact absurd (Option.some.inj hn) h
  | 1 | 3 | 4 => cases hn
  | 2 => exact ⟨by decide, rfl, rfl, rfl⟩
  | _ + 5 => cases hn

theorem flatMap {α : Type} {f : α → List Act} (hf : ∀ x, PulsesFramed c (f x)) (xs : List α) :
    PulsesFramed c (xs.flatMap f) := by
  induction xs with
  | nil => exact of_not_mem List.not_mem_nil
  | cons x xs ih =>
    rw [List.flatMap_cons]
    exact (hf x).append ih

end PulsesFramed

section Scripts

variable (c : Config)

theorem pulsesFramed_sendBit (b : Bool) : PulsesFramed c (sendBit c b) := .cell (a := .emit (.dout b)) nofun

theorem pulsesFramed_recvBit : PulsesFramed c (recvBit c) := .cell (a := .sample) nofun

theorem pulsesFramed_sends (bits : List Bool) : PulsesFramed c (bits.flatMap (sendBit c)) :=
  .flatMap (pulsesFramed_sendBit c) bits

theorem pulsesFramed_recvBits (n : Nat) : PulsesFramed c (recvBits c n) := by
  rw [recvBits_eq]
  exact .flatMap (fun _ => pulsesFramed_recvBit c) _

theorem pulsesFramed_switchData (m : DataDir) : PulsesFramed c (switchData m) := .of_not_mem (by simp [switchData])

theorem pulsesFramed_driveReset (v : ResetDrive) : PulsesFramed c (driveReset v) := .of_not_mem (by simp [driveReset])

theorem pulsesFramed_delay (t : Nat) : PulsesFramed c (delay t) := .of_not_mem (by simp [delay])

theorem pulsesFramed_keyCells : PulsesFramed c (keyCells c) := by
  rw [keyCells, sendBitsMsb_eq]
  exact pulsesFramed_sends c _

theorem pulsesFramed_flushCells : PulsesFramed c (flushCells c) := by
  rw [flushCells, sendZeros_eq]
  exact pulsesFramed_sends c _

theorem pulsesFramed_sixCells (opcode : Opcode) : PulsesFramed c (sixCells c opcode) := by
  rw [sixCells_eq]
  exact pulsesFramed_sends c _

theorem pulsesFramed_regoutCells : PulsesFramed c (regoutCells c) := by
  rw [regoutCells_eq]
  exact (pulsesFramed_sends c _).append <| (pulsesFramed_switchData c _).append <|
    (pulsesFramed_recvBits c _).append (pulsesFramed_switchData c _)

theorem pulsesFramed_openScript : PulsesFramed c (openScript c) :=
  have hreset := pulsesFramed_driveReset c
  have hdelay := pulsesFramed_delay c
  hreset _ |>.append (hdelay _) |>.append (hreset _) |>.append (hdelay _) |>.append (pulsesFramed_keyCells c)
    |>.append (hdelay _) |>.append (hreset _) |>.append (hdelay _) |>.append (pulsesFramed_flushCells c)

theorem pulsesFramed_closeScript : PulsesFramed c (closeScript c) :=
  pulsesFramed_driveReset c _ |>.append (pulsesFramed_delay c _) |>.append (pulsesFramed_driveReset c _)

/-- In every instruction's list the delays stand around every pulse. -/
theorem pulsesFramed_script (i : Instr) : PulsesFramed c (jobOf c i).script := by
  cases i with
  | openCmd => exact pulsesFramed_openScript c
  | closeCmd => exact pulsesFramed_closeScript c
  | six opcode | sixFrame opcode => exact pulsesFramed_sixCells c opcode
  | regout | regoutFrame => exact pulsesFramed_regoutCells c
  | flushFrame => exact pulsesFramed_flushCells c
  | keyFrame => exact pulsesFramed_keyCells c
  | sendBit b => exact pulsesFramed_sendBit c b
  | recvBit => exact pulsesFramed_recvBit c
  | _ => exact .of_not_mem List.not_mem_nil

end Scripts

/-! ### One answer -/

/-- An operation performed adds one reply: the refusal, or what it returns when it completes (R203). -/
theorem perform_replies (s : State) (j : Job) : ∃ r, (s.perform j).replies = s.replies ++ [r] := by
  obtain ⟨reason, -, hp⟩ | ⟨-, hp⟩ := perform_cases s j
  · exact ⟨.refused reason, by rw [hp, refuse_replies]⟩
  · exact ⟨_, by rw [hp, State.finish, complete_replies, acts_replies, accept_replies]⟩

end Sys2Proof.Machine

namespace Sys2Proof.Proofs

open Sys2Proof.Machine Sys2Proof.Claims

/-- Settles O9: each helper is a run of cells over its bits, which are below `2 ^ n`. -/
theorem multiBitHelpersSendBitsInTheirOrder : Obligations.MultiBitHelpersSendBitsInTheirOrder := by
  intro c v n
  refine ⟨sendBitsLsb_eq c v n, sendBitsMsb_eq c v n, sendZeros_eq c n, recvBits_eq c n, ?_, ?_, ?_,
    length_recvBits c n, ?_, ?_⟩
  · rw [sendBitsLsb_eq, length_sends, lsbBits_length]
  · rw [sendBitsMsb_eq, length_sends, msbBits_length]
  · rw [sendZeros_eq, length_sends, List.length_replicate]
  · rw [sendBitsLsb_eq, sendBitsLsb_eq, lsbBits_mod]
  · rw [sendBitsMsb_eq, sendBitsMsb_eq, msbBits_mod]

/-- Settles O10: the cells frame their pulses, and nothing else raises the clock. -/
theorem everyPulseStandsBetweenEqualDelays : Obligations.EveryPulseStandsBetweenEqualDelays :=
  pulsesFramed_script

/-- Settles O7: the cell is a run of outbound cells with one bit. -/
theorem sendBitEmitsItsFiveEvents : Obligations.SendBitEmitsItsFiveEvents := by
  intro b s
  rw [exec_eq, jobOf, sendBitJob_eq, perform_sendFrame]
  rfl

/-- Settles O8: the receive cell, performed with the engine's configuration. -/
theorem recvBitSamplesThenPulsesAndReturnsTheBit : Obligations.RecvBitSamplesThenPulsesAndReturnsTheBit := by
  intro s
  rw [exec_eq, jobOf, perform_recvBitJob]
  rfl

/-- Settles O24: every meaning performs its operation, which adds one reply. -/
theorem everyInstructionReachesANextState : Obligations.EveryInstructionReachesANextState := fun i s =>
  ⟨_, exec_eq i s, perform_replies s _⟩

end Sys2Proof.Proofs
end

section
/-! PROOFS. The statements of 41_session_commands.md: the four commands performed and refused, their totals, the session
states they move between, and the hosts whose runs never end. -/

namespace Sys2Proof.Machine

open Sys2Proof.Claims

/-! ### A command, performed or refused -/

/-- Once admitted, a command that leaves `SESSION` alone does what its frame does by itself (R111, R112). -/
theorem perform_admitted_frame {s : State} {j : Job} (ha : s.refusal j = none) (hb : j.becomes = none) :
    s.perform j = s.perform (frameJob j.script j.answer) := by
  rw [perform_admitted s j ha, perform_admitted s _ (refusal_none s _ rfl rfl), hb]
  rfl

theorem exec_six_of_active {s : State} (hs : s.session = .active) (opcode : Opcode) :
    exec (.six opcode) s = exec (.sixFrame opcode) s := by
  simp only [exec_eq, jobOf]
  rw [perform_admitted_frame (admitted_of_session rfl rfl hs) rfl, sixJob]

theorem exec_regout_of_active {s : State} (hs : s.session = .active) : exec .regout s = exec .regoutFrame s := by
  simp only [exec_eq, jobOf]
  rw [perform_admitted_frame (admitted_of_session rfl rfl hs) rfl, regoutJob]

/-- What the latches make of OPEN's events: the last verb is the release, the last cell a zero (R110). -/
theorem latched_openTrace (c : Config) (s : State) :
    latched s (openTrace c) = { s with rst := .released, dout := false, clk := false } := by
  rw [openTrace, latched_append, outCells, outCells, latched_outCells c _ _ (List.cons_ne_nil _ _)]
  simp only [latched, resetVerbs_append, resetVerbs_outCells, List.filterMap_append, dirModes_outCells]
  rfl

/-- An operation that names a session state is refused, without effect, in the other one (R114, decision D3). -/
theorem perform_wrongSession {s : State} {j : Job} {m : Session} (ht : j.typed = true) (hn : j.needs = some m)
    (hs : s.session ≠ m) : s.perform j = turnedAway s .wrongSessionState :=
  perform_refused s j _ (by simp [State.refusal, ht, hn, hs])

/-! ### The session -/

/-- Of all instructions only OPEN and CLOSE write `SESSION` (R115, R196). -/
theorem jobOf_becomes (c : Config) (i : Instr) : (jobOf c i).becomes = none ∨ i = .openCmd ∨ i = .closeCmd := by
  cases i with
  | openCmd => exact .inr (.inl rfl)
  | closeCmd => exact .inr (.inr rfl)
  | _ => exact .inl rfl

/-- An instruction performed keeps `SESSION`, or it is OPEN from `Closed` or CLOSE from `Active` (R115). -/
theorem perform_session_cases (s : State) (i : Instr) :
    (s.perform (jobOf Config.engine i)).session = s.session ∨
    (i = .openCmd ∧ s.session = .closed ∧ (s.perform (jobOf Config.engine i)).session = .active) ∨
    (i = .closeCmd ∧ s.session = .active ∧ (s.perform (jobOf Config.engine i)).session = .closed) := by
  cases ha : s.refusal (jobOf Config.engine i) with
  | some r => exact .inl (by rw [perform_refused s _ r ha, refuse_session])
  | none =>
    rw [perform_session ha]
    obtain hb | rfl | rfl := jobOf_becomes Config.engine i
    · exact .inl (by rw [hb, Option.getD_none])
    · exact .inr (.inl ⟨rfl, session_of_admitted ha rfl, rfl⟩)
    · exact .inr (.inr ⟨rfl, session_of_admitted ha rfl, rfl⟩)

/-! ### The key -/

/-- Of the key an instruction reads what the KEY frame sends, and no more (R62, R110). -/
theorem jobOf_congr_key {c : Config} (key : Nat) (i : Instr) (hkey : keyCells { c with key := key } = keyCells c) :
    jobOf { c with key := key } i = jobOf c i := by
  have hflush : flushCells { c with key := key } = flushCells c := by
    rw [flushCells, flushCells, sendZeros_eq, sendZeros_eq]
    rfl
  have hsix (opcode : Opcode) : sixCells { c with key := key } opcode = sixCells c opcode := by
    rw [sixCells_eq, sixCells_eq]
    rfl
  have hregout : regoutCells { c with key := key } = regoutCells c := by
    rw [regoutCells_eq, regoutCells_eq, recvBits_eq, recvBits_eq]
    rfl
  cases i with
  | openCmd => simp only [jobOf, openJob, openScript, hkey, hflush]
  | six opcode => simp only [jobOf, sixJob, hsix]
  | regout => simp only [jobOf, regoutJob, hregout]
  | sixFrame opcode => simp only [jobOf, hsix]
  | regoutFrame => simp only [jobOf, hregout]
  | flushFrame => simp only [jobOf, hflush]
  | keyFrame => simp only [jobOf, hkey]
  | _ => rfl

/-! ### The totals of rule R117 -/

/-- The totals of a sequence of events: its length, its clock pulses, its `DOUT` events, its `DIN` events, and the
microseconds it waits (R117). -/
def Totals (tr : List Event) (n pulse out inn wait : Nat) : Prop :=
  tr.length = n ∧ pulses tr = pulse ∧ (outBits tr).length = out ∧ (inBits tr).length = inn ∧ waitTotal tr = wait

/-- The totals of two sequences in turn are the sums of theirs. -/
theorem Totals.append {a b : List Event} {n n' pulse pulse' out out' inn inn' wait wait' : Nat}
    (ha : Totals a n pulse out inn wait) (hb : Totals b n' pulse' out' inn' wait') :
    Totals (a ++ b) (n + n') (pulse + pulse') (out + out') (inn + inn') (wait + wait') := by
  obtain ⟨rfl, rfl, rfl, rfl, rfl⟩ := ha
  obtain ⟨rfl, rfl, rfl, rfl, rfl⟩ := hb
  simp [Totals]

theorem totals_outCells (c : Config) (bits : List Bool) :
    Totals (bits.flatMap (outCell c)) (5 * bits.length) bits.length bits.length 0 (2 * c.p * bits.length) := by
  simp [Totals, -List.length_flatMap]

theorem totals_inCells (c : Config) (bits : List Bool) :
    Totals (bits.flatMap (inCell c)) (5 * bits.length) bits.length 0 bits.length (2 * c.p * bits.length) := by
  simp [Totals, -List.length_flatMap]

theorem totals_openScript (c : Config) (xs : List Bool) :
    Totals (events (openScript c) xs) (4 + 5 * c.keyLen + 3 + 5 * c.nFlush) (c.keyLen + c.nFlush) (c.keyLen + c.nFlush) 0
      (2 * c.tRstSettle + c.tKeyHold + c.tEnterHold + 2 * c.p * (c.keyLen + c.nFlush)) := by
  have hreset : Totals [.rst .low, .wait c.tRstSettle, .rst .high, .wait c.tRstSettle] 4 0 0 0 (2 * c.tRstSettle) := by
    refine ⟨rfl, rfl, rfl, rfl, ?_⟩
    simp [waitTotal, Event.duration, Nat.two_mul]
  have hhold : Totals [.wait c.tKeyHold, .rst .released, .wait c.tEnterHold] 3 0 0 0 (c.tKeyHold + c.tEnterHold) := by
    refine ⟨rfl, rfl, rfl, rfl, ?_⟩
    simp [waitTotal, Event.duration]
  have h := ((hreset.append (totals_outCells c (msbBits c.key c.keyLen))).append hhold).append
    (totals_outCells c (List.replicate c.nFlush false))
  rw [events_openScript]
  convert h using 1
  all_goals simp [Nat.mul_add]
  omega

theorem totals_sixCells (c : Config) (opcode : Opcode) (xs : List Bool) :
    Totals (events (sixCells c opcode) xs) (5 * (c.nCtrl + c.nOpcode)) (c.nCtrl + c.nOpcode) (c.nCtrl + c.nOpcode) 0
      (2 * c.p * (c.nCtrl + c.nOpcode)) := by
  rw [events_sixCells]
  simpa using totals_outCells c (List.replicate c.nCtrl false ++ lsbBits opcode.toNat c.nOpcode)

theorem totals_regoutCells (c : Config) {xs : List Bool} (hx : xs.length = c.nRegoutData) :
    Totals (events (regoutCells c) xs) (5 * (c.nCtrl + c.nRegoutDelay) + 1 + 5 * c.nRegoutData + 1)
      (c.nCtrl + c.nRegoutDelay + c.nRegoutData) (c.nCtrl + c.nRegoutDelay) c.nRegoutData
      (2 * c.p * (c.nCtrl + c.nRegoutDelay + c.nRegoutData)) := by
  have hdir (m : DataDir) : Totals [.dir m] 1 0 0 0 0 := ⟨rfl, rfl, rfl, rfl, rfl⟩
  have h := (((totals_outCells c (lsbBits 1 c.nCtrl ++ List.replicate c.nRegoutDelay false)).append
    (hdir .sense)).append (totals_inCells c xs)).append (hdir .drive)
  rw [events_regoutCells c xs hx]
  convert h using 1
  all_goals simp [hx, Nat.mul_add]

theorem totals_closeScript (c : Config) (xs : List Bool) : Totals (events (closeScript c) xs) 3 0 0 0 c.tExitLow := by
  rw [events_closeScript]
  refine ⟨rfl, rfl, rfl, rfl, ?_⟩
  simp [waitTotal, Event.duration]

/-! ### Runs without end -/

/-- A run never ends where a property holds of its first state, of the state after every step, and of no state in which the
run is over (R119, R202). -/
theorem endless_of_invariant {w : World} {s : State} (P : State → Prop) (hs : P s)
    (hover : ∀ t, P t → ¬ t.over w.host) (hstep : ∀ t, P t → ∃ u, w.step t = .next u ∧ P u) : w.endless s := by
  have hrun (n : Nat) : ∃ t, w.run n s = .next t ∧ P t := by
    induction n generalizing s with
    | zero => exact ⟨s, rfl, hs⟩
    | succ n ih =>
      obtain ⟨u, hu, hP⟩ := hstep s hs
      obtain ⟨t, ht, hPt⟩ := ih hP
      exact ⟨t, by rw [World.run, hu]; exact ht, hPt⟩
  intro n
  obtain ⟨t, ht, hP⟩ := hrun n
  exact ⟨t, ht, hover t hP⟩

/-- Where the host has a further request, the run is not over. -/
theorem not_over_of_request {h : HostProgram} {s : State} {r : Request} (hr : h s.replies = some r) : ¬ s.over h := by
  rintro ⟨-, -, hn⟩
  rw [hr] at hn
  cases hn

theorem perform_host (s : State) (j : Job) : (s.perform j).host = s.host := by
  obtain ⟨reason, -, hp⟩ | ⟨-, hp⟩ := perform_cases s j
  · rw [hp, refuse_host]
  · rw [hp, State.finish, complete_host, acts_host, accept_host]

/-- At a free port the host's further request is performed, the target's bits shown. -/
theorem world_step_perform {w : World} {s : State} {r : Request} {i : Instr} (hf : s.idle) (hh : s.host = [])
    (hr : w.host s.replies = some r) (hi : r.read = .run i) :
    w.step s = .next ((w.shown s).perform (jobOf Config.engine i)) := by
  have hs : { w.shown s with host := [] } = w.shown s := by
    rw [← hh]
    rfl
  rw [world_step_request w s r i hf.1 hh hr hi, hs]

/-- At a free port a request of the host that the port takes or refuses leaves the port free, with nothing waiting. -/
theorem world_step_free {w : World} {s : State} {r : Request} (hf : s.idle) (hh : s.host = [])
    (hr : w.host s.replies = some r) (hns : ∀ q, r.read ≠ .stop q) :
    ∃ t, w.step s = .next t ∧ t.idle ∧ t.host = [] := by
  cases hi : r.read with
  | stop q => exact absurd hi (hns q)
  | run i => exact ⟨_, world_step_perform hf hh hr hi, perform_idle _ hf, (perform_host _ _).trans hh⟩
  | refuse reason =>
    refine ⟨turnedAway { w.shown s with host := [] } reason, ?_, hf, rfl⟩
    rw [World.step, if_pos ⟨hf.1, hh⟩, hr]
    exact step_refuse hf.1 rfl hi

/-! ### The completion poll (R164) -/

/-- "SIX with an encoder call" is a request that the port takes, whether the call is well typed or not (R60, R77). -/
theorem read_sixOf {call : Instr} (hi : isEncoderCall call) : (Request.op (sixOf call)).read = .run (sixOf call) := by
  have hq : (sixOf call).isRequest = true := by
    unfold sixOf
    split
    · rfl
    · rw [Instr.isRequest, hi]
  rw [Request.read, atThePort, if_pos hq]

/-- What the engine answers in a session to "SIX with an encoder call": nothing, or the refusal of an ill-typed operand. -/
def callReply (call : Instr) : Reply := if call.wf then .done else .refused .operandOutOfRange

/-- The replies to one round of the poll whose REGOUT returns `v`. -/
def roundReplies (h : HostProfile) (v : Half) : List Reply :=
  [callReply (.retrieve h.nvmconAddr h.wData), callReply (.store h.wData h.visiAddr), .value v]

/-- The replies to the first `k` rounds of the poll. -/
def roundsReplies (w : World) (h : HostProfile) (k : Nat) : List Reply :=
  (List.range k).flatMap fun j => roundReplies h (w.value j)

theorem roundsReplies_succ (w : World) (h : HostProfile) (k : Nat) :
    roundsReplies w h (k + 1) = roundsReplies w h k ++ roundReplies h (w.value k) := by
  simp [roundsReplies, List.range_succ]

/-- After rounds whose values all have a bit of the mask set, the poll goes on as from its beginning. -/
theorem poll_roundsReplies {w : World} {h : HostProfile} (next : HostProgram) {k : Nat}
    (hbusy : ∀ j < k, stillWriting h.wrMask (w.value j) = true) (b : List Reply) :
    pollProgram h next (roundsReplies w h k ++ b) = pollProgram h next b := by
  induction k generalizing b with
  | zero => rfl
  | succ k ih =>
    have hends : pollEnds h (w.value k) = false := by simp [pollEnds, hbusy k k.lt_succ_self]
    rw [roundsReplies_succ, List.append_assoc, ih fun j hj => hbusy j (hj.trans k.lt_succ_self), pollProgram,
      HostProgram.poll_round (round := pollRound h) _ _ (roundReplies h (w.value k)) b (w.value k) (List.cons_ne_nil _ _)
        rfl rfl, hends]
    rfl

/-- In a session whose first command was OPEN the host has had `k` whole rounds of its poll answered, and `m` requests of the
next one. -/
structure Polling (w : World) (h : HostProfile) (k m : Nat) (s : State) : Prop where
  idle : s.idle
  host : s.host = []
  active : s.session = .active
  draws : s.draws = 16 * k
  replies : s.replies = [.done] ++ (roundsReplies w h k ++ (roundReplies h (w.value k)).take m)

/-- Every request of a round is one that the port takes. -/
theorem read_pollRound {h : HostProfile} {m : Nat} {i : Instr} (hi : (pollRound h)[m]? = some i) :
    (Request.op i).read = .run i := by
  obtain rfl | rfl | rfl :
      i = sixOf (.retrieve h.nvmconAddr h.wData) ∨ i = sixOf (.store h.wData h.visiAddr) ∨ i = .regout := by
    simpa [pollRound] using List.mem_of_getElem? hi
  · exact read_sixOf rfl
  · exact read_sixOf rfl
  · rfl

section Polling

variable {w : World} {h : HostProfile} {next : HostProgram} {k m : Nat} {s : State}
  (hw : w.host = .ask [.openCmd] (pollProgram h next))
include hw

/-- OPEN begins the poll. -/
theorem polling_of_open (d : Bool) (v : ResetDrive) :
    ∃ t, w.step (State.powerOn d v) = .next t ∧ Polling w h 0 0 t := by
  have hr : w.host (State.powerOn d v).replies = some (.op .openCmd) := by rw [hw]; rfl
  have hp := perform_admitted (w.shown (State.powerOn d v)) (openJob Config.engine) (admitted_of_session rfl rfl rfl)
  simp only [openJob, sampleCount_openScript] at hp
  refine ⟨_, world_step_perform ⟨rfl, rfl, rfl⟩ rfl hr rfl, perform_idle _ ⟨rfl, rfl, rfl⟩, perform_host _ _,
    ?_, ?_, ?_⟩
  all_goals
    rw [jobOf, openJob, hp]
    rfl

variable (hbusy : ∀ j < k, stillWriting h.wrMask (w.value j) = true) (p : Polling w h k m s)
include hbusy p

/-- Where every whole round returned a value with a bit of the mask set, the host asks the next request of its round. -/
theorem Polling.request {i : Instr} (hi : (pollRound h)[m]? = some i) : w.host s.replies = some (.op i) := by
  obtain ⟨hm, rfl⟩ := List.getElem?_eq_some_iff.mp hi
  have hlen : ((roundReplies h (w.value k)).take m).length = m := List.length_take_of_le hm.le
  rw [p.replies, hw, HostProgram.ask_done _ _ _ _ rfl, poll_roundsReplies next hbusy, pollProgram,
    HostProgram.poll_next _ _ _ (hlen.symm ▸ hm)]
  simp only [hlen]

/-- That request is performed. -/
theorem Polling.step_eq {i : Instr} (hi : (pollRound h)[m]? = some i) :
    w.step s = .next ((w.shown s).perform (jobOf Config.engine i)) :=
  world_step_perform p.idle p.host (p.request hw hbusy hi) (read_pollRound hi)

/-- "SIX with an encoder call" within a round. -/
theorem Polling.step_call {call : Instr} {typed : Bool} {formula : Nat} (hi : (pollRound h)[m]? = some (sixOf call))
    (hr : (roundReplies h (w.value k))[m]? = some (callReply call))
    (hj : jobOf Config.engine call = encoderJob typed formula) :
    ∃ t, w.step s = .next t ∧ Polling w h k (m + 1) t := by
  obtain ⟨hreplies, hsession, hhost, hdraws⟩ := perform_sixOf hj (w.shown s) p.active
  refine ⟨_, p.step_eq hw hbusy hi, perform_idle _ p.idle, hhost.trans p.host, hsession.trans p.active,
    hdraws.trans p.draws, hreplies.trans ?_⟩
  rw [World.shown, p.replies, List.take_add_one, hr, List.append_assoc, List.append_assoc]
  rfl

/-- REGOUT ends a round: it returns the value of the target's next sixteen bits. -/
theorem Polling.step_regout (hm : m = 2) : ∃ t, w.step s = .next t ∧ Polling w h (k + 1) 0 t := by
  subst hm
  have hp := perform_admitted (w.shown s) (regoutJob Config.engine) (admitted_of_session rfl rfl p.active)
  simp only [regoutJob, sampleCount_regoutCells, engine_nRegoutData, shown_samples, p.draws] at hp
  refine ⟨_, p.step_eq hw hbusy (i := .regout) rfl, perform_idle _ p.idle, (perform_host _ _).trans p.host, ?_, ?_, ?_⟩
  all_goals rw [jobOf, regoutJob, hp]
  · exact p.active
  · exact congrArg (· + 16) p.draws
  · simp [World.shown, p.replies, roundsReplies_succ, roundReplies, World.value]

/-- A step of the poll stays in the round or, at its end, begins the next one. -/
theorem Polling.exists_step (hm : m < 3) : ∃ t, w.step s = .next t ∧ ∃ k' m', m' < 3 ∧ Polling w h k' m' t := by
  obtain rfl | rfl | rfl : m = 0 ∨ m = 1 ∨ m = 2 := by omega
  · obtain ⟨t, ht, q⟩ := p.step_call hw hbusy (call := .retrieve h.nvmconAddr h.wData) rfl rfl rfl
    exact ⟨t, ht, _, _, by decide, q⟩
  · obtain ⟨t, ht, q⟩ := p.step_call hw hbusy (call := .store h.wData h.visiAddr) rfl rfl rfl
    exact ⟨t, ht, _, _, by decide, q⟩
  · obtain ⟨t, ht, q⟩ := p.step_regout hw hbusy rfl
    exact ⟨t, ht, _, _, by decide, q⟩

end Polling

end Sys2Proof.Machine

namespace Sys2Proof.Proofs

open Sys2Proof.Machine Sys2Proof.Claims

/-- Settles O16: the admitted operation's events are OPEN's, and the latches hold what they leave. -/
theorem openRunsTheEntrySequenceAndEndsActive : Obligations.OpenRunsTheEntrySequenceAndEndsActive := by
  intro s hs
  have htrace (xs : List Bool) : events (openScript Config.engine) xs = openTrace Config.engine := events_openScript _ xs
  rw [exec_eq, jobOf, perform_admitted s _ (admitted_of_session rfl rfl hs)]
  simp only [openJob, sampleCount_openScript, htrace, latched_openTrace]
  rfl

/-- Settles O17: the admitted command is the SIX frame (`sixFrameSendsControlCodeThenOpcodeBits`). -/
theorem sixSendsAnyOpcodeUnchanged : Obligations.SixSendsAnyOpcodeUnchanged := fun opcode s hs =>
  (exec_six_of_active hs opcode).trans (sixFrameSendsControlCodeThenOpcodeBits opcode s).1

/-- Settles O18: the admitted command is the REGOUT frame (`regoutFrameSendsTwelveCellsAndReceivesSixteen`). -/
theorem regoutReturnsTheSixteenSamples : Obligations.RegoutReturnsTheSixteenSamples := fun s hs =>
  (exec_regout_of_active hs).trans (regoutFrameSendsTwelveCellsAndReceivesSixteen s)

/-- Settles O20: the three events of the admitted command. -/
theorem closePulsesResetAndEndsClosed : Obligations.ClosePulsesResetAndEndsClosed := by
  intro s hs
  rw [exec_eq, jobOf, perform_admitted s _ (admitted_of_session rfl rfl hs)]
  rfl

/-- Settles O21: each command names the session state that admits it. -/
theorem wrongSessionStateIsRefusedWithoutEffect : Obligations.WrongSessionStateIsRefusedWithoutEffect := by
  have refused {i : Instr} {m : Session} {s : State} (ht : (jobOf Config.engine i).typed = true)
      (hn : (jobOf Config.engine i).needs = some m) (hs : s.session ≠ m) :
      exec i s = .next (turnedAway s .wrongSessionState) := by
    rw [exec_eq, perform_wrongSession ht hn hs]
  intro s
  refine ⟨fun hs => refused rfl rfl (by simp [hs]), fun hs => ⟨fun opcode => ?_, ?_, ?_⟩⟩
  all_goals exact refused (m := .active) rfl rfl (by simp [hs])

/-- Settles O23: by what an instruction performed does to `SESSION`; OPEN is admitted in the `Closed` that CLOSE leaves. -/
theorem onlyOpenAndCloseChangeTheSession : Obligations.OnlyOpenAndCloseChangeTheSession := by
  refine ⟨fun i s t h => ?_, fun s t hs h => ?_⟩
  · rw [exec_next h]
    exact perform_session_cases s i
  · have ht : t.session = .closed := by
      rw [exec_next h, perform_session (admitted_of_session rfl rfl hs)]
      rfl
    exact ⟨_, exec_eq .openCmd t, perform_session (admitted_of_session rfl rfl ht)⟩

/-- Settles O57: OPEN and the KEY frame send the key's low `KEY_LEN` bits; nothing else reads the key. -/
theorem keyBitsAboveItsLengthAreIgnored : Obligations.KeyBitsAboveItsLengthAreIgnored := by
  intro c i
  refine jobOf_congr_key _ i ?_
  simp only [keyCells, sendBitsMsb_eq, msbBits_mod]
  rfl

/-- Settles O22: command by command, the sums over its events; the spec's numbers are those of its bit counts. -/
theorem commandTotals : Obligations.CommandTotals := by
  intro c opcode bs hbs
  have hopen := totals_openScript c bs
  have hsix := totals_sixCells c opcode bs
  have hregout := totals_regoutCells c hbs
  refine ⟨hopen, hsix, hregout, totals_closeScript c bs, ?_⟩
  rintro ⟨hflush, hctrl, hopcode, hdelay, hdata⟩
  rw [hflush, show 4 + 5 * c.keyLen + 3 + 5 * 5 = 32 + 5 * c.keyLen by omega] at hopen
  rw [hctrl, hopcode, show 2 * c.p * (4 + 24) = 56 * c.p by omega] at hsix
  rw [hctrl, hdelay, hdata, show 2 * c.p * (4 + 8 + 16) = 56 * c.p by omega] at hregout
  exact ⟨hopen, hsix, hregout⟩

/-- Settles O59: the port stays free and the infinite program has a further request; and the poll stays within its rounds. -/
theorem unboundedHostsRunForever : Obligations.UnboundedHostsRunForever := by
  refine ⟨fun w f d v hw hns => ?_, fun w h next d v hw hbusy => ?_⟩
  · have request (t : State) : w.host t.replies = some (f t.replies.length) := by rw [hw]; rfl
    refine endless_of_invariant (fun t => t.idle ∧ t.host = []) ⟨⟨rfl, rfl, rfl⟩, rfl⟩
      (fun t _ => not_over_of_request (request t)) fun t ⟨hf, hh⟩ => ?_
    exact world_step_free hf hh (request t) (hns _)
  · refine endless_of_invariant (fun t => t = State.powerOn d v ∨ ∃ k m, m < 3 ∧ Polling w h k m t) (.inl rfl) ?_ ?_
    · rintro t (rfl | ⟨k, m, hm, p⟩)
      · exact not_over_of_request (r := .op .openCmd) (by rw [hw]; rfl)
      · exact not_over_of_request (p.request hw (fun j _ => hbusy j) (List.getElem?_eq_getElem hm))
    · rintro t (rfl | ⟨k, m, hm, p⟩)
      · obtain ⟨u, hu, q⟩ := polling_of_open hw d v
        exact ⟨u, hu, .inr ⟨0, 0, by decide, q⟩⟩
      · obtain ⟨u, hu, q⟩ := p.exists_step hw (fun j _ => hbusy j) hm
        exact ⟨u, hu, .inr q⟩

end Sys2Proof.Proofs
end

section
/-! PROOFS. The statements of 42_instruction_encoder.md: every call of the encoder answers the word of its field table or is
refused, and the helper transforms and the packing word by word. -/

namespace Sys2Proof

open Sys2Proof.Machine

/-! ### Words put together from their fields (R6) -/

/-- The upper of two fields weighs `2 ^ n` above a lower one of `n` bits. -/
theorem toNat_append_eq_add {m n : Nat} (x : BitVec m) (y : BitVec n) :
    (x ++ y).toNat = x.toNat * 2 ^ n + y.toNat := by
  rw [BitVec.toNat_append, ← Nat.shiftLeft_add_eq_or_of_lt y.isLt, Nat.shiftLeft_eq]

/-- A slice of a word is the field of its number. -/
theorem toNat_extractLsb'_eq_field {n : Nat} (lo len : Nat) (x : BitVec n) :
    (x.extractLsb' lo len).toNat = field x.toNat lo len := by
  rw [BitVec.extractLsb'_toNat, Nat.shiftRight_eq_div_pow, field]

theorem toNat_litOpcode {data reg : Nat} (hd : data < 65536) (hr : reg < 16) :
    (0b0010#4 ++ BitVec.ofNat 16 data ++ BitVec.ofNat 4 reg).toNat = litFields data reg := by
  simp only [toNat_append_eq_add, BitVec.toNat_ofNat, litFields]
  omega

theorem toNat_fileOpcode {s addr reg : Nat} (hs : s < 2) (ha : addr < 65536) (hr : reg < 16) :
    (BitVec.ofNat 5 (16 + s) ++ (BitVec.ofNat 16 addr).extractLsb' 1 15 ++ BitVec.ofNat 4 reg).toNat =
      fileFields s addr reg := by
  simp only [toNat_append_eq_add, toNat_extractLsb'_eq_field, BitVec.toNat_ofNat, fileFields, field]
  omega

theorem toNat_gotoOpcode {addr : Nat} (ha : addr < 65536) :
    (0b00000100#8 ++ BitVec.ofNat 16 addr).toNat = gotoFields addr := by
  simp only [toNat_append_eq_add, BitVec.toNat_ofNat, gotoFields]
  omega

theorem toNat_bsetOpcode {addr bit : Nat} (ha : addr < 65536) (hb : bit < 16) :
    (0b10101000#8 ++ (BitVec.ofNat 4 bit).extractLsb' 1 3 ++ (BitVec.ofNat 16 addr).extractLsb' 1 12 ++
      (BitVec.ofNat 4 bit).extractLsb' 0 1).toNat = bsetFields addr bit := by
  simp only [toNat_append_eq_add, toNat_extractLsb'_eq_field, BitVec.toNat_ofNat,
    bsetFields, field]
  omega

theorem toNat_tblOpcode {sel src srcMode dst dstMode : Nat} (hsel : sel < 8)
    (hc : isTableCall src srcMode dst dstMode = true) :
    (Claims.tblOpcode (BitVec.ofNat 3 sel) src srcMode dst dstMode).toNat =
      tblFields (sel / 4) (sel / 2 % 2) (sel % 2) src srcMode dst dstMode := by
  obtain ⟨hs, hm, hd, hn⟩ := isTableCall_iff.mp hc
  simp only [Claims.tblOpcode, toNat_append_eq_add, BitVec.toNat_ofNat, tblFields]
  omega

/-! ### The address bit that STORE and RETRIEVE drop (R134, R135) -/

theorem or_one_div_two (x : Nat) : (x ||| 1) / 2 = x / 2 := by
  rw [Nat.or_div_two]
  exact Nat.or_zero _

theorem fileAddress_or_one (addr : Nat) : fileAddress (addr ||| 1) = fileAddress addr := by
  rw [fileAddress_eq, fileAddress_eq, or_one_div_two]

theorem isHalf_or_one (x : Nat) : isHalf (x ||| 1) = isHalf x := by
  have h := or_one_div_two x
  rw [Bool.eq_iff_iff, isHalf_iff, isHalf_iff]
  omega

end Sys2Proof

namespace Sys2Proof.Machine

open Sys2Proof.Claims

/-! ### The calls, answered (R130) -/

/-- A well-typed call answers the word its field table gives it, whatever formula the number is written as. -/
theorem encodes_of_call {i : Instr} {formula : Nat} {o : Opcode} (hi : isEncoderCall i) (hwf : i.wf = true)
    (ho : o.toNat = (encode i).bits) (hf : formula = (encode i).bits) : Encodes i formula o := by
  refine ⟨fun s => ?_, ho.trans hf.symm⟩
  have hbits : toOpcode (encode i).bits = o := by rw [← ho, toOpcode, BitVec.ofNat_toNat, BitVec.setWidth_eq]
  rw [exec_eq, jobOf_call hi hwf, perform_encoderJob, hbits]

/-- The five table operations at once: the base holds `1011101` and the selector bits (R68). -/
theorem encodes_tableOp {sel : Nat} {op : Nat → Nat → Nat → Nat → Instr} (h : tableOp sel = some op) (hsel : sel < 8)
    {src srcMode dst dstMode : Nat} (hc : isTableCall src srcMode dst dstMode = true) :
    Encodes (op src srcMode dst dstMode) ((2 ^ 14 * (93 * 8 + sel)) ||| tableOperands src srcMode dst dstMode)
      (tblOpcode (BitVec.ofNat 3 sel) src srcMode dst dstMode) := by
  obtain ⟨henc, hwf, -⟩ := tableOp_encodes h src srcMode dst dstMode
  obtain ⟨hs, hm, hd, hn⟩ := isTableCall_iff.mp hc
  have hbase : 93 * 8 + sel = 93 * 8 + sel / 4 * 4 + sel / 2 % 2 * 2 + sel % 2 := by omega
  refine encodes_of_call (congrArg PortWord.format henc) (hwf.trans hc) ?_ ?_
  · rw [henc]
    exact toNat_tblOpcode hsel hc
  · rw [henc, hbase]
    exact tableFormula_eq _ _ _ hs hm hd hn

/-! ### The calls, refused (R131, R191) -/

/-- An ill-typed call is refused with no effect (decision D9). -/
theorem exec_illTyped {i : Instr} (hi : i.wf = false) (s : State) :
    exec i s = .next (turnedAway s .operandOutOfRange) := by
  have hr : s.refusal (jobOf Config.engine i) = some .operandOutOfRange := by
    simp [State.refusal, jobOf_typed, hi]
  rw [exec_eq, perform_refused s _ _ hr]
  rfl

/-- Only a call of the encoder can be written ill typed, and a host may present it (R131; log entry 20). -/
theorem isRequest_of_illTyped {i : Instr} (hi : i.wf = false) : i.isRequest = true := by
  cases i with
  | openCmd | six _ | regout | closeCmd | sixFrame _ | regoutFrame | flushFrame | keyFrame | sendBit _ | recvBit | nop =>
    cases hi
  | _ => rfl

/-! ### The helper transforms (R143 to R145) -/

theorem toNat_upper8 (x : Nat) : (upper8 x).toNat = (x >>> 16) &&& 0xFF :=
  Nat.mod_eq_of_lt (Nat.lt_succ_of_le Nat.and_le_right)

theorem toNat_upper8_eq_field (x : Nat) : (upper8 x).toNat = field x 16 8 := by
  rw [toNat_upper8, field, ← Nat.shiftRight_eq_div_pow]
  exact Nat.and_two_pow_sub_one_eq_mod _ 8

theorem toNat_lower16 (x : Nat) : (lower16 x).toNat = x % 2 ^ 16 := by
  rw [lower16, BitVec.toNat_ofNat, Nat.and_two_pow_sub_one_eq_mod x 16, Nat.mod_mod]

/-- The mask `0xFF` reads the low byte. -/
theorem toNat_and_byteMask (w : Half) : w.toNat &&& 0xFF = (w.extractLsb' 0 8).toNat := by
  rw [BitVec.extractLsb'_toNat]
  exact Nat.and_two_pow_sub_one_eq_mod _ 8

theorem combine24_eq_append (low high : Half) : combine24 low high = high.extractLsb' 0 8 ++ low := by
  have hlow : low.toNat &&& 0xFFFF = low.toNat := by
    rw [Nat.and_two_pow_sub_one_eq_mod low.toNat 16, Nat.mod_eq_of_lt low.isLt]
  rw [combine24, toNat_and_byteMask, hlow, ← BitVec.toNat_append, BitVec.ofNat_toNat, BitVec.setWidth_eq]

/-- Below bit 24, `upper8` and `lower16` are the whole of a number (R143, R144). -/
theorem toNat_upper8_append_lower16 {x : Nat} (hx : x < 2 ^ 24) : (upper8 x ++ lower16 x).toNat = x := by
  rw [toNat_append_eq_add, toNat_upper8_eq_field, toNat_lower16, field]
  omega

/-! ### The packing (R146 to R148) -/

theorem packBytes_eq_append (hi lo : Half) : packBytes hi lo = hi.extractLsb' 0 8 ++ lo.extractLsb' 0 8 := by
  have hmask (w : Half) : (w &&& 0xFF#16).toNat = (w.extractLsb' 0 8).toNat := toNat_and_byteMask w
  have hfits : (hi.extractLsb' 0 8).toNat <<< 8 < 2 ^ 16 := by
    rw [Nat.shiftLeft_eq]
    omega
  apply BitVec.eq_of_toNat_eq
  rw [packBytes, BitVec.toNat_or, BitVec.toNat_shiftLeft, hmask, hmask, Nat.mod_eq_of_lt hfits, BitVec.toNat_append]

/-- One packing takes the eight entries from the cursor on. -/
theorem packStep_eq (image : List Half) (cursor : Nat) :
    packStep image cursor =
      (pack6 (image.getD (cursor + 0) 0) (image.getD (cursor + 1) 0) (image.getD (cursor + 2) 0)
        (image.getD (cursor + 3) 0) (image.getD (cursor + 4) 0) (image.getD (cursor + 5) 0) (image.getD (cursor + 6) 0)
        (image.getD (cursor + 7) 0), cursor + 8) := rfl

/-- One packing, and the others from eight entries further on. -/
theorem packSteps_succ (image : List Half) (n cursor : Nat) :
    packSteps image (n + 1) cursor =
      ((packStep image cursor).1.toList ++ (packSteps image n (cursor + 8)).1, (packSteps image n (cursor + 8)).2) := rfl

/-- The words of `n` packings, eight entries each. -/
theorem packSteps_eq (image : List Half) (n cursor : Nat) :
    packSteps image n cursor =
      ((List.range n).flatMap fun k => (packStep image (cursor + 8 * k)).1.toList, cursor + 8 * n) := by
  induction n generalizing cursor with
  | zero => rfl
  | succ n ih =>
    have hcursor (k : Nat) : cursor + 8 + 8 * k = cursor + 8 * (k + 1) := by omega
    rw [packSteps_succ, ih, List.range_succ_eq_map, List.flatMap_cons, List.flatMap_map]
    simp only [hcursor]
    rfl

theorem length_packSteps (image : List Half) (n cursor : Nat) : (packSteps image n cursor).1.length = 6 * n := by
  simp [packSteps_eq, List.length_flatMap, TransferWords.toList, Nat.mul_comm]

/-- Past the end of the image a packing is six zeros (R146). -/
theorem packStep_past_end {image : List Half} {cursor : Nat} (h : image.length ≤ cursor) :
    (packStep image cursor).1.toList = List.replicate 6 0 := by
  have hpast (m : Nat) : image.getD (cursor + m) 0 = 0 := List.getD_eq_default _ _ (by omega)
  simp only [packStep_eq, hpast]
  rfl

theorem packSteps_past_end {image : List Half} {cursor : Nat} (n : Nat) (h : image.length ≤ cursor) :
    (packSteps image n cursor).1 = List.replicate (6 * n) 0 := by
  refine List.eq_replicate_iff.mpr ⟨length_packSteps image n cursor, fun w hw => ?_⟩
  rw [packSteps_eq] at hw
  obtain ⟨k, -, hk⟩ := List.mem_flatMap.mp hw
  rw [packStep_past_end (by omega)] at hk
  exact List.eq_of_mem_replicate hk

end Sys2Proof.Machine

namespace Sys2Proof.Proofs

open Sys2Proof.Machine Sys2Proof.Claims

/-- Settles O27: the word of a call without operands. -/
theorem nopEncodesZero : Obligations.NopEncodesZero := encodes_of_call rfl rfl rfl rfl

/-- Settles O28: formula and bit fields are both format LIT. -/
theorem loadImmediateEncodes : Obligations.LoadImmediateEncodes := by
  intro data reg hd hr
  have hwf : (Instr.loadImmediate data reg).wf = true := Bool.and_eq_true_iff.mpr ⟨isHalf_iff.mpr hd, isReg_iff.mpr hr⟩
  exact encodes_of_call rfl hwf (toNat_litOpcode hd hr) (loadImmediateFormula_eq hd hr)

/-- Settles O29: formula and bit fields are both format FILE with `S` set; neither reads `addr[0]`. -/
theorem storeEncodes : Obligations.StoreEncodes := by
  intro reg addr hr ha
  have hwf : (Instr.store reg addr).wf = true := Bool.and_eq_true_iff.mpr ⟨isReg_iff.mpr hr, isHalf_iff.mpr ha⟩
  refine ⟨encodes_of_call rfl hwf (toNat_fileOpcode (s := 1) (by decide) ha hr) (storeFormula_eq hr ha), fun s => ?_⟩
  simp only [exec_eq, jobOf, storeFormula, fileAddress_or_one, isHalf_or_one]

/-- Settles O30: as for STORE, with `S` clear. -/
theorem retrieveEncodes : Obligations.RetrieveEncodes := by
  intro addr reg ha hr
  have hwf : (Instr.retrieve addr reg).wf = true := Bool.and_eq_true_iff.mpr ⟨isHalf_iff.mpr ha, isReg_iff.mpr hr⟩
  refine ⟨encodes_of_call rfl hwf (toNat_fileOpcode (s := 0) (by decide) ha hr) (retrieveFormula_eq ha hr), fun s => ?_, ?_⟩
  · simp only [exec_eq, jobOf, retrieveFormula, fileAddress_or_one, isHalf_or_one]
  · show fileFields 1 addr reg = fileFields 0 addr reg + 2 ^ 19
    unfold fileFields
    omega

/-- Settles O31: formula and bit fields are both format GOTO. -/
theorem jumpEncodes : Obligations.JumpEncodes := fun _ ha =>
  encodes_of_call rfl (isHalf_iff.mpr ha) (toNat_gotoOpcode ha) (jumpFormula_eq ha)

/-- Settles O32: formula and bit fields are both format BSET. -/
theorem bitSetEncodes : Obligations.BitSetEncodes := by
  intro addr bit ha hb
  have hwf : (Instr.bitSet addr bit).wf = true := Bool.and_eq_true_iff.mpr ⟨isHalf_iff.mpr ha, isBitNumber_iff.mpr hb⟩
  have hf : bitSetFormula addr bit = 0xA80000 ||| (addr &&& 0x1FFE) ||| ((bit &&& 0xE) <<< 12) ||| (bit &&& 0x1) :=
    (Nat.or_assoc ..).symm
  exact encodes_of_call rfl hwf (toNat_bsetOpcode ha hb) (hf.symm.trans (bitSetFormula_eq hb))

/-- Settles O33: each operation by its selector bits `W,H,B`. -/
theorem tableOperationsEncode : Obligations.TableOperationsEncode := by
  intro src srcMode dst dstMode hs hm hd hn
  have hc : isTableCall src srcMode dst dstMode = true := isTableCall_iff.mpr ⟨hs, hm, hd, hn⟩
  exact ⟨encodes_tableOp (sel := 0) rfl (by decide) hc, encodes_tableOp (sel := 2) rfl (by decide) hc,
    encodes_tableOp (sel := 4) rfl (by decide) hc, encodes_tableOp (sel := 6) rfl (by decide) hc,
    encodes_tableOp (sel := 7) rfl (by decide) hc⟩

/-- Settles O34: the types are `Instr.wf`'s bounds, and the admission test reads `Instr.wf`. -/
theorem illTypedEncoderCallsAreRefused : Obligations.IllTypedEncoderCallsAreRefused := by
  refine ⟨fun data reg => ?_, fun reg addr => ?_, fun addr reg => ?_, fun addr => isHalf_iff, fun addr bit => ?_,
    fun src srcMode dst dstMode op hop => ?_, fun i s hi => exec_illTyped hi s, fun i s rest hi hf hh => ?_⟩
  · rw [Instr.wf, Bool.and_eq_true, isHalf_iff, isReg_iff]
  · rw [Instr.wf, Bool.and_eq_true, isReg_iff, isHalf_iff]
  · rw [Instr.wf, Bool.and_eq_true, isHalf_iff, isReg_iff]
  · rw [Instr.wf, Bool.and_eq_true, isHalf_iff, isBitNumber_iff]
  · fin_cases hop <;> exact isTableCall_iff
  · have hr : (Request.op i).read = .run i := if_pos (isRequest_of_illTyped hi)
    rw [step_run hf hh hr, exec_illTyped hi]

/-- Settles O41: the mask keeps bits 16 to 23 of `x` and no other. -/
theorem upperPartIsTheSliceBelowBitTwentyFour : Obligations.UpperPartIsTheSliceBelowBitTwentyFour := by
  refine ⟨fun x => ⟨toNat_upper8 x, fun i hi => ?_, ?_⟩, by decide, by decide, by decide⟩
  · show (upper8 x).toNat.testBit i = x.testBit (16 + i)
    rw [toNat_upper8_eq_field, field, Nat.testBit_mod_two_pow, Nat.testBit_div_two_pow, decide_eq_true hi, Bool.true_and,
      Nat.add_comm]
  · apply BitVec.eq_of_toNat_eq
    rw [toNat_upper8_eq_field, toNat_upper8_eq_field, field, field]
    omega

/-- Settles O42: the two parts stand side by side in the result, and below bit 24 they are the whole number. -/
theorem combineJoinsLowByteOfHighAboveLow : Obligations.CombineJoinsLowByteOfHighAboveLow := by
  refine ⟨combine24_eq_append, fun x high hx hhigh => ?_, fun x => ⟨toNat_lower16 x, fun hx => ?_⟩⟩
  · rw [combine24_eq_append, hhigh, toNat_upper8_append_lower16 hx]
  · rw [← BitVec.toNat_append, toNat_upper8_append_lower16 hx]

/-- Settles O43: the entry is there, or the default 0 stands for it. -/
theorem fetchNextReadsZeroPastTheEnd : Obligations.FetchNextReadsZeroPastTheEnd := fun _ _ cursor =>
  ⟨fun h => congrArg (·, cursor + 1) (List.getD_eq_getElem _ _ h),
    fun h => congrArg (·, cursor + 1) (List.getD_eq_default _ _ h)⟩

/-- Settles O44: words 2 and 5 are two low bytes side by side. -/
theorem packSixInterleavesLowBytes : Obligations.PackSixInterleavesLowBytes := by
  intro d1 d2 d3 d4 d5 d6 d7 d8
  rw [pack6, packBytes_eq_append, packBytes_eq_append]
  rfl

/-- Settles O45: a packing reads the eight entries from its own cursor on. -/
theorem rowIsSixteenPackings : Obligations.RowIsSixteenPackings := fun image cursor =>
  ⟨packSteps_eq image 16 cursor, length_packSteps image 16 cursor, packSteps_past_end 16⟩

end Sys2Proof.Proofs
end

section
/-! PROOFS. The statements of 43_host_sequences.md: a session that polls, round by round up to the value that ends the poll,
and the CLOSE that ends it. -/

namespace Sys2Proof.Machine

/-! ### Runs, step by step -/

/-- A run of one step is that step. -/
theorem run_one {w : World} {s t : State} (h : w.step s = .next t) : w.run 1 s = .next t := by
  rw [World.run, h]
  rfl

/-- Two runs in turn are one. -/
theorem run_trans {w : World} {m n : Nat} {s t u : State} (hm : w.run m s = .next t) (hn : w.run n t = .next u) :
    w.run (m + n) s = .next u :=
  (world_run_add w m n s t hm).trans hn

/-! ### The host at the end of its poll (R164) -/

/-- After the round whose value has the mask clear, the host goes on to what follows the poll. -/
theorem poll_done {w : World} {h : HostProfile} (next : HostProgram) {k : Nat}
    (hbusy : ∀ j < k, stillWriting h.wrMask (w.value j) = true) (hclear : stillWriting h.wrMask (w.value k) = false)
    (b : List Reply) : pollProgram h next (roundsReplies w h (k + 1) ++ b) = next b := by
  have hends : pollEnds h (w.value k) = true := by simp [pollEnds, hclear]
  rw [roundsReplies_succ, List.append_assoc, poll_roundsReplies next hbusy, pollProgram,
    HostProgram.poll_round (round := pollRound h) _ _ (roundReplies h (w.value k)) b (w.value k) (List.cons_ne_nil _ _)
      rfl rfl, if_pos hends]

/-- A session that polls, told the replies to OPEN and to the rounds that end its poll, goes on to its CLOSE. -/
theorem inSession_poll_done {w : World} {h : HostProfile} {k : Nat}
    (hbusy : ∀ j < k, stillWriting h.wrMask (w.value j) = true) (hclear : stillWriting h.wrMask (w.value k) = false)
    (b : List Reply) :
    inSession (pollProgram h) ([.done] ++ (roundsReplies w h (k + 1) ++ b)) = HostProgram.ask [.closeCmd] .stop b := by
  rw [inSession, HostProgram.ask_done _ _ _ _ rfl, poll_done _ hbusy hclear]

/-! ### The rounds of the poll -/

section Rounds

variable {w : World} {h : HostProfile} {next : HostProgram} {k : Nat} {s : State}
  (hw : w.host = .ask [.openCmd] (pollProgram h next))
include hw

/-- A round takes three steps: RETRIEVE, STORE, REGOUT. -/
theorem Polling.run_round (hbusy : ∀ j < k, stillWriting h.wrMask (w.value j) = true) (p : Polling w h k 0 s) :
    ∃ t, w.run 3 s = .next t ∧ Polling w h (k + 1) 0 t := by
  obtain ⟨t₁, h₁, p₁⟩ := p.step_call hw hbusy (call := .retrieve h.nvmconAddr h.wData) rfl rfl rfl
  obtain ⟨t₂, h₂, p₂⟩ := p₁.step_call hw hbusy (call := .store h.wData h.visiAddr) rfl rfl rfl
  obtain ⟨t₃, h₃, p₃⟩ := p₂.step_regout hw hbusy rfl
  exact ⟨t₃, run_trans (run_trans (run_one h₁) (run_one h₂)) (run_one h₃), p₃⟩

/-- Rounds follow one another while each value but the last has a bit of the mask set. -/
theorem Polling.run_rounds (hbusy : ∀ j < k, stillWriting h.wrMask (w.value j) = true) (p : Polling w h 0 0 s) :
    ∃ t, w.run (3 * (k + 1)) s = .next t ∧ Polling w h (k + 1) 0 t := by
  induction k with
  | zero => exact p.run_round hw hbusy
  | succ k ih =>
    obtain ⟨t, ht, q⟩ := ih fun j hj => hbusy j (hj.trans k.lt_succ_self)
    obtain ⟨u, hu, q'⟩ := q.run_round hw hbusy
    exact ⟨u, run_trans ht hu, q'⟩

end Rounds

/-! ### CLOSE after the poll -/

/-- The session is closed after the poll: CLOSE returns, and the reply to it is the last one. -/
theorem Polling.step_close {w : World} {h : HostProfile} {k : Nat} {s : State} (hw : w.host = inSession (pollProgram h))
    (hbusy : ∀ j < k, stillWriting h.wrMask (w.value j) = true) (hclear : stillWriting h.wrMask (w.value k) = false)
    (p : Polling w h (k + 1) 0 s) :
    ∃ t, w.step s = .next t ∧ t.idle ∧ t.host = [] ∧ t.session = .closed ∧
      t.replies = [.done] ++ (roundsReplies w h (k + 1) ++ [.done]) := by
  have hreplies : s.replies = [.done] ++ (roundsReplies w h (k + 1) ++ []) := p.replies
  have hr : w.host s.replies = some (.op .closeCmd) := by
    rw [hw, hreplies, inSession_poll_done hbusy hclear]
    rfl
  have hp := perform_admitted (w.shown s) (closeJob Config.engine) (admitted_of_session rfl rfl p.active)
  refine ⟨_, world_step_perform p.idle p.host hr rfl, perform_idle _ p.idle, (perform_host _ _).trans p.host, ?_, ?_⟩
  all_goals rw [jobOf, hp]
  · rfl
  · simp [World.shown, hreplies, closeJob]

/-! ### Refusals in the poll (R131, R191) -/

/-- "SIX with an encoder call" is answered with no refusal exactly if the call is well typed. -/
theorem callReply_not_refused_iff {call : Instr} : (∀ r, callReply call ≠ .refused r) ↔ call.wf = true := by
  cases hwf : call.wf <;> simp [callReply, hwf]

/-- A round is answered with no refusal exactly if the two addresses of the poll are 16 bits. -/
theorem roundReplies_not_refused_iff {h : HostProfile} {v : Half} :
    (∀ r, .refused r ∉ roundReplies h v) ↔ h.nvmconAddr < 2 ^ 16 ∧ h.visiAddr < 2 ^ 16 := by
  have hretrieve : (Instr.retrieve h.nvmconAddr h.wData).wf = true ↔ h.nvmconAddr < 2 ^ 16 := by
    simp [Instr.wf, isHalf_iff, isReg_iff]
  have hstore : (Instr.store h.wData h.visiAddr).wf = true ↔ h.visiAddr < 2 ^ 16 := by
    simp [Instr.wf, isHalf_iff, isReg_iff]
  rw [← hretrieve, ← hstore, ← callReply_not_refused_iff, ← callReply_not_refused_iff, ← forall_and]
  refine forall_congr' fun r => ?_
  simp [roundReplies, eq_comm]

/-- Every round of a poll is answered with no refusal exactly if the two addresses are 16 bits. -/
theorem roundsReplies_not_refused_iff {w : World} {h : HostProfile} {k : Nat} :
    (∀ r, .refused r ∉ roundsReplies w h (k + 1)) ↔ h.nvmconAddr < 2 ^ 16 ∧ h.visiAddr < 2 ^ 16 := by
  constructor
  · intro hno
    refine (roundReplies_not_refused_iff (v := w.value k)).mp fun r hr => hno r ?_
    rw [roundsReplies_succ]
    exact List.mem_append_right _ hr
  · intro haddr r hr
    obtain ⟨j, -, hj⟩ := List.mem_flatMap.mp hr
    exact roundReplies_not_refused_iff.mpr haddr r hj

end Sys2Proof.Machine

namespace Sys2Proof.Proofs

open Sys2Proof.Machine Sys2Proof.Claims

/-- Settles O60: OPEN, the rounds up to the first value with the mask clear, and CLOSE, one run after the other; the only
replies that can be refusals are those of the rounds. -/
theorem thePollEndsWhenTheMaskClears : Obligations.ThePollEndsWhenTheMaskClears := by
  intro w h k d v hw hbusy hclear
  obtain ⟨s, hopen, p⟩ := polling_of_open hw d v
  obtain ⟨t, hrounds, q⟩ := p.run_rounds hw hbusy
  obtain ⟨u, hclose, hidle, hhost, hsession, hreplies⟩ := q.step_close hw hbusy hclear
  have hover : u.over w.host := by
    refine ⟨hidle, hhost, ?_⟩
    rw [hreplies, hw, inSession_poll_done hbusy hclear]
    rfl
  have hrefused : (∀ r, .refused r ∉ u.replies) ↔ ∀ r, .refused r ∉ roundsReplies w h (k + 1) := by simp [hreplies]
  refine ⟨u, run_trans (run_trans (run_one hopen) hrounds) (run_one hclose), hover, hsession, ?_⟩
  rw [← roundsReplies_not_refused_iff, ← hrefused]
  exact ⟨fun ⟨_, _, hno⟩ => hno, fun hno => ⟨hover, hsession, hno⟩⟩

end Sys2Proof.Proofs
end

section
/-! PROOFS. The statement of 60_exceptions.md: a reply that is a refusal is the admission test's, and then it is the only
change. -/

namespace Sys2Proof.Machine

/-- What a completed operation returns is no refusal (R191, R203). -/
theorem reply_ne_refused (s : State) (a : Answer) (r : RefusalReason) : s.reply a ≠ .refused r := by
  cases a <;> exact Reply.noConfusion

/-- An operation whose reply is a refusal failed the admission test, for the reason it returns (R114, R131). -/
theorem refusal_of_perform_replies {s : State} {j : Job} {r : RefusalReason}
    (h : (s.perform j).replies = s.replies ++ [.refused r]) : s.refusal j = some r := by
  obtain ⟨r', href, hp⟩ | ⟨-, hp⟩ := perform_cases s j
  · rw [hp, refuse_replies] at h
    obtain rfl : r' = r := by simpa using h
    exact href
  · rw [hp, State.finish, complete_replies, acts_replies, accept_replies] at h
    exact absurd (List.singleton_inj.mp (List.append_cancel_left h)) (reply_ne_refused _ _ r)

end Sys2Proof.Machine

namespace Sys2Proof.Proofs

open Sys2Proof.Machine Sys2Proof.Claims

/-- Settles O25: the refusal is the admission test's, and a failed admission test adds the refusal to the replies only. -/
theorem refusedRequestsDoNothing : Obligations.RefusedRequestsDoNothing := by
  intro i s t r h hreply
  rw [exec_next h] at hreply ⊢
  exact perform_refused s _ r (refusal_of_perform_replies hreply)

end Sys2Proof.Proofs
end

section
/-! PROOFS. The statements of 70_reset_and_hazards.md: what the durations carry, and what the engine does unasked. -/

namespace Sys2Proof.Machine

open Sys2Proof.Claims

/-! ### Durations forgotten -/

/-- An action with the duration of its wait forgotten. -/
def blankActWait : Act → Act
  | .emit e => .emit (blankWait e)
  | .sample => .sample

/-- An operation with the durations in its list forgotten. -/
def Job.untimed (j : Job) : Job := { j with script := j.script.map blankActWait }

/-- An engine whose durations are all zero, its bit counts, key and levels kept (R5). -/
def untimed (c : Config) : Config :=
  { c with p := 0, tRstSettle := 0, tKeyHold := 0, tEnterHold := 0, tExitLow := 0, tClkHigh := 0 }

/-! ### What an operation leaves, its durations forgotten -/

@[simp] theorem blankWait_blankWait (e : Event) : blankWait (blankWait e) = blankWait e := by cases e <;> rfl

/-- No latch holds a duration (R9, R96). -/
theorem latch_blankWait (s : State) (e : Event) : s.latch (blankWait e) = s.latch e := by cases e <;> rfl

theorem latched_map_blankWait (s : State) (tr : List Event) : latched s (tr.map blankWait) = latched s tr := by
  induction tr generalizing s with
  | nil => rfl
  | cons e tr ih => rw [List.map_cons, latched_cons, latched_cons, latch_blankWait, ih]

@[simp] theorem sampleCount_map_blankActWait (as : List Act) : sampleCount (as.map blankActWait) = sampleCount as := by
  induction as with
  | nil => rfl
  | cons a as ih => cases a <;> simpa [sampleCount, blankActWait] using ih

theorem events_map_blankActWait (as : List Act) (xs : List Bool) :
    events (as.map blankActWait) xs = (events as xs).map blankWait := by
  induction as generalizing xs with
  | nil => rfl
  | cons a as ih =>
    cases a with
    | emit e => simp [events, blankActWait, ih]
    | sample => cases xs <;> simp [events, blankActWait, blankWait, ih]

/-- What an operation leaves depends on its durations in the recorded waits only (R96, R223). -/
theorem forgetWaits_perform_untimed (s : State) (j : Job) :
    forgetWaits (s.perform j.untimed) = forgetWaits (s.perform j) := by
  have href : s.refusal j.untimed = s.refusal j := rfl
  cases hr : s.refusal j with
  | some r => rw [perform_refused _ _ _ (href.trans hr), perform_refused _ _ _ hr]
  | none =>
    rw [perform_admitted _ _ (href.trans hr), perform_admitted _ _ hr]
    simp [forgetWaits, Job.untimed, events_map_blankActWait, latched_map_blankWait]

/-! ### The operations of an engine, their durations forgotten -/

section Scripts

variable (c : Config)

theorem sends_untimed (bits : List Bool) :
    (bits.flatMap (sendBit c)).map blankActWait = bits.flatMap (sendBit (untimed c)) :=
  List.map_flatMap

theorem recvBits_untimed (n : Nat) : (recvBits c n).map blankActWait = recvBits (untimed c) n := by
  induction n with
  | zero => rfl
  | succ n ih =>
    rw [recvBits, List.map_append, ih]
    rfl

theorem keyCells_untimed : (keyCells c).map blankActWait = keyCells (untimed c) := by
  rw [keyCells, sendBitsMsb_eq, sends_untimed, ← sendBitsMsb_eq]
  rfl

theorem flushCells_untimed : (flushCells c).map blankActWait = flushCells (untimed c) := by
  rw [flushCells, sendZeros_eq, sends_untimed, ← sendZeros_eq]
  rfl

theorem sixCells_untimed (opcode : Opcode) : (sixCells c opcode).map blankActWait = sixCells (untimed c) opcode := by
  rw [sixCells_eq, sends_untimed, sixCells_eq]
  rfl

theorem regoutCells_untimed : (regoutCells c).map blankActWait = regoutCells (untimed c) := by
  rw [regoutCells_eq, List.map_append, sends_untimed, List.map_append, List.map_append, recvBits_untimed, regoutCells_eq]
  rfl

theorem openScript_untimed : (openScript c).map blankActWait = openScript (untimed c) := by
  simp only [openScript, List.map_append, keyCells_untimed, flushCells_untimed]
  rfl

/-- An instruction's operation, its durations forgotten, is that of the engine without durations. -/
theorem jobOf_untimed (i : Instr) : (jobOf c i).untimed = jobOf (untimed c) i := by
  have script (j : Job) {as : List Act} (h : j.script.map blankActWait = as) : j.untimed = { j with script := as } :=
    h ▸ rfl
  cases i with
  | openCmd => exact script _ (openScript_untimed c)
  | six opcode | sixFrame opcode => exact script _ (sixCells_untimed c opcode)
  | regout | regoutFrame => exact script _ (regoutCells_untimed c)
  | flushFrame => exact script _ (flushCells_untimed c)
  | keyFrame => exact script _ (keyCells_untimed c)
  | _ => rfl

end Scripts

/-- What an instruction leaves, the durations of the recorded waits forgotten, is what it leaves in an engine without
durations (R223). -/
theorem forgetWaits_perform_jobOf (s : State) (c : Config) (i : Instr) :
    forgetWaits (s.perform (jobOf c i)) = forgetWaits (s.perform (jobOf (untimed c) i)) := by
  rw [← forgetWaits_perform_untimed, jobOf_untimed]

end Sys2Proof.Machine

namespace Sys2Proof.Proofs

open Sys2Proof.Machine Sys2Proof.Claims

/-- Settles O56: both engines leave what the engine without durations leaves. -/
theorem timingCarriesNoFunction : Obligations.TimingCarriesNoFunction := by
  intro c p settle key enter exit high i s c'
  have hc : untimed c' = untimed c := rfl
  refine ⟨?_, exec_eq i s⟩
  rw [forgetWaits_perform_jobOf s c, forgetWaits_perform_jobOf s c', hc]

/-- Settles O2: no command is there to finish and the port reads no request. -/
theorem nothingHappensUntilTheHostPresents : Obligations.NothingHappensUntilTheHostPresents := by
  intro s hf hh
  have hfetch : fetch s = none := by rw [fetch, hh]
  rw [step, hf, hfetch]

end Sys2Proof.Proofs
end

section
/-! PROOFS. The statement of 00_scope.md on the words of the opcode table: stored for the next step, each runs as the
instruction the decoder reads from it, at the port or in flight. -/

namespace Sys2Proof.Machine

open Sys2Proof.Proofs

/-! ### A word of the opcode table, stored for the next step -/

theorem decodeTableWord_eq_some_iff {nbits w : Nat} {i : Instr} :
    decodeTableWord nbits w = some i ↔ ∃ word, tableWord nbits w = some word ∧ decode word = .ok i := by
  unfold decodeTableWord
  cases tableWord nbits w with
  | none => simp
  | some word => cases hd : decode word <;> simp [Except.toOption, hd]

/-- What no host can request, a frame or a cell, is admitted in every state: it asks for no session state and has no
operand outside its type (R114, R131). -/
theorem refusal_of_not_request (s : State) (c : Config) {i : Instr} (hq : i.isRequest = false) :
    s.refusal (jobOf c i) = none := by
  cases i with
  | sixFrame _ | regoutFrame | flushFrame | keyFrame | sendBit _ | recvBit => exact refusal_none s _ rfl rfl
  | _ => cases hq

/-- An operation that the admission test lets through, in flight from its first action on, is performed by the next step,
whatever was in flight before. -/
theorem step_accept {s : State} {j : Job} (ha : s.refusal j = none) :
    step (s.accept j) = .next (State.perform { s with inFlight := none, useq := 0, rx := [] } j) := by
  have hfree : State.refusal { s with inFlight := none, useq := 0, rx := [] } j = none := ha
  rw [step_inFlight (accept_inFlight s j), State.perform, hfree]
  rfl

/-- A word presented runs as the instruction it decodes to: a request as the host's next one, and what no host can request
as the operation in flight (log entry 2). -/
theorem step_presentWord (s : State) {word : PortWord} {i : Instr} (hd : decode word = .ok i) :
    step (s.presentWord word) = exec i { s with inFlight := none, useq := 0, rx := [] } := by
  cases hq : i.isRequest with
  | true =>
    have hs : s.presentWord word = s.present (some (.word word)) := by simp [State.presentWord, hd, hq]
    rw [hs]
    exact (stepRunsTheDecodedRequest (s.present (some (.word word))) (.word word) s.host i rfl rfl
      (.inr ⟨word, rfl, hd⟩)).1 hq
  | false =>
    have hs : s.presentWord word = s.accept (jobOf Config.engine i) := by simp [State.presentWord, hd, hq]
    rw [hs, step_accept (refusal_of_not_request s Config.engine hq), exec_eq]

end Sys2Proof.Machine

namespace Sys2Proof.Proofs

open Sys2Proof.Machine Sys2Proof.Claims

/-- Settles O4: the table's word is presented, and the step runs what it decodes to (`step_presentWord`). -/
theorem storedTableWordIsTheNextInstruction : Obligations.StoredTableWordIsTheNextInstruction := by
  intro s nbits w i hi
  obtain ⟨word, hw, hd⟩ := decodeTableWord_eq_some_iff.mp hi
  have hs : s.withFetchWord nbits w = s.presentWord word := by simp [State.withFetchWord, hw]
  rw [hs, step_presentWord s hd]

end Sys2Proof.Proofs
end
